-- ==== Sys2Proof/Config.lean ====
section
/-! DEFINITION. What an implementation fixes and the spec leaves to a parameter, and the free values:
constants with no body, of which no proof can know anything (00 R6 to R8; 93 U8, U14). -/

namespace Sys2Proof

/-- The default of `TARGET_W`, the width of the `target` field of a pointer word (00 R8, 92 D4). `TARGET_W` itself is a
parameter: the encodings take it as an argument, and each Coding says which one its table is laid out for
(`Coding.targetW`, log entry 3). The default serves only the opcode table's 24-bit words and the spec's own Codings. -/
abbrev Config.targetW : Nat := 16

/-- The least `TARGET_W`: "at least 8" (00 R8). -/
abbrev Config.minTargetW : Nat := 8

/-- The least and the greatest `treeShift` the spec admits (00 R7, 92 D2). -/
abbrev Config.minTreeShift : Nat := 1
@[inherit_doc Config.minTreeShift]
abbrev Config.maxTreeShift : Nat := 25

/-- What `heldBits` holds after `CodingCorrupt`: "any value" (60 R196, 93 U8). A free value, log entry 2. -/
opaque Config.freeHeldBits : Nat → BitVec 32
/-- What the 6-bit register `heldCount` holds after `CodingCorrupt`: "any value" (60 R196, 93 U8; width 92 D6).
A free value, log entry 2. -/
opaque Config.freeHeldCount : Nat → BitVec 6
/-- What `treeIndex` holds after `CodingCorrupt`: "any value" (60 R196, 93 U8). A free value, log entry 2. -/
opaque Config.freeTreeIndex : Nat → Int

end Sys2Proof
end

