-- ==== Sys2Proof/Word.lean ====
section
/-! DEFINITION. The words of the machine (00 R6, R9; 30 R80). -/

namespace Sys2Proof

/-- `BYTE_W = SYM_W = 8`: one byte of `SRC`, one decoded symbol of `DST` (00 R6). -/
abbrev Byte := BitVec 8

/-- `ACC_W = 32`: the accumulator word `heldBits` (00 R6). -/
abbrev AccWord := BitVec 32

/-- One pointer word of the space `TBL` at `TARGET_W = tw`: `PTR_W = TARGET_W + 8` bits (30 R80). -/
abbrev PtrWord (tw : Nat) := BitVec (tw + 8)

end Sys2Proof
end

