-- ==== Sys2Proof/Machine/Memory.lean ====
section
/-! DEFINITION. The table memory `TBL` and the Coding that owns it (20 R50 to R52, R56; 00 R7).
`TBL` is word-addressed, one pointer word an address, and never accessed at another width, so its cells are words
and no byte order arises (20 R51, R61; 92 D11, D24). -/

namespace Sys2Proof

/-- The cells of a word-addressed memory, in ONE canonical form: addresses strictly rising, and no cell that holds
what an unlisted address reads as (log entry 5). `tw` is `TARGET_W`. -/
abbrev Memory (tw : Nat) := List (Nat × PtrWord tw)

/-- What an unlisted address reads as: the all-zero, "never written" table word of 30 R82 and 92 D8, an invalid
kind. Log entry 5. -/
def Memory.unlisted {tw : Nat} : PtrWord tw := 0#(tw + 8)

/-- The word at an address. -/
def Memory.read {tw : Nat} : Memory tw → Nat → PtrWord tw
  | [], _ => Memory.unlisted
  | (b, v) :: rest, a => if a = b then v else Memory.read rest a

/-- Put a word at an address, keeping the canonical form: writing what an unlisted address reads as removes the cell.
No command writes `TBL` (20 R52); this is how a table is laid out before `NEW` (70 R222). -/
def Memory.write {tw : Nat} : Memory tw → Nat → PtrWord tw → Memory tw
  | [], a, w => if w = Memory.unlisted then [] else [(a, w)]
  | (b, v) :: rest, a, w =>
    if a < b then (if w = Memory.unlisted then (b, v) :: rest else (a, w) :: (b, v) :: rest)
    else if a = b then (if w = Memory.unlisted then rest else (a, w) :: rest)
    else (b, v) :: Memory.write rest a w

/-- The canonical form holds. -/
def Memory.wf {tw : Nat} : Memory tw → Bool
  | [] => true
  | (a, w) :: rest => (w != Memory.unlisted) && rest.all (fun cell => decide (a < cell.1)) && Memory.wf rest

/-- A Coding: the immutable table and its three constants (00 R7, 10 R27, 20 R51), laid out for one `TARGET_W`. -/
structure Coding where
  /-- The parameter `TARGET_W` that the table's words are laid out for (00 R8). A hardware block built with one
  `TARGET_W` is this machine given Codings of that one; log entry 3. -/
  targetW : Nat
  /-- Bits examined per lookup step. -/
  treeShift : Nat
  /-- Index of the root node. -/
  treeIndexStart : Nat
  /-- `NODE_COUNT`, the number of nodes. -/
  nodeCount : Nat
  /-- `treeNodes`, the space `TBL`, by flat address. -/
  table : Memory targetW
  deriving DecidableEq, Repr

/-- Slots of a node: `2^treeShift` (20 R51). -/
def Coding.slots (c : Coding) : Nat := 2 ^ c.treeShift

/-- The number of words of `TBL`: `NODE_COUNT * 2^treeShift` (20 R51). -/
def Coding.size (c : Coding) : Nat := c.nodeCount * c.slots

/-- The flat word address of slot `s` of node `i` (20 R51, 92 D11). -/
def Coding.flatAddress (c : Coding) (i s : Nat) : Nat := i * c.slots + s

/-- The pair `(i, s)` is an address of `TBL` (20 R51). -/
def Coding.inTable (c : Coding) (i : Int) (s : Nat) : Bool :=
  decide (0 ≤ i) && decide (i < (c.nodeCount : Int)) && decide (s < c.slots)

/-- The word at slot `s` of node `i`. -/
def Coding.word (c : Coding) (i s : Nat) : PtrWord c.targetW := c.table.read (c.flatAddress i s)

/-- `TblRead(i, s)` (00 R11, 20 R51, R52): the pointer word at an address of the table, and nothing outside it
(93 U4: no wrap-around is defined). -/
def Coding.tblRead (c : Coding) (i : Int) (s : Nat) : Option (PtrWord c.targetW) :=
  if c.inTable i s then some (c.word i.toNat s) else none

/-- `TARGET_W` is at least 8 (00 R8), and the table's cells are in canonical form and all lie in `TBL`: every Coding of
the spec has exactly one such representation. -/
def Coding.canonical (c : Coding) : Bool :=
  decide (Config.minTargetW ≤ c.targetW) && Memory.wf c.table && c.table.all (fun cell => decide (cell.1 < c.size))

/-- The least Coding at a `TARGET_W` over a table memory in which nothing has been written: one node of two all-zero
words. -/
def Coding.blankAt (tw : Nat) : Coding :=
  { targetW := tw, treeShift := 1, treeIndexStart := 0, nodeCount := 1, table := [] }

/-- It stands for "operand words of zeros" where an encoding carries no Coding; log entry 8. -/
def Coding.blank : Coding := Coding.blankAt Config.targetW

end Sys2Proof
end

