-- ==== Sys2Proof/Syntax.lean ====
section
/-! DEFINITION. The instructions: one constructor per row of spec/opcode_table.json (00 R10, 30 R94). -/

namespace Sys2Proof

/-- The four pointer words, as the abstract pointer of 20 R53 (`consumeBits : natural` with a payload), and the four
commands with the operands carried beside their code (30 R87). -/
inductive Instr where
  /-- DESCEND: `Descend(offset)`, a signed offset in whole nodes (20 R55, 30 R84). -/
  | descend (consumeBits : Nat) (offset : Int)
  /-- RETURN: `Return(symbol)` (20 R55, 30 R85). -/
  | ret (consumeBits : Nat) (symbol : Byte)
  /-- INVALID0: `Invalid(0b00)` (20 R53, 30 R90). -/
  | invalid0 (consumeBits : Nat)
  /-- INVALID3: `Invalid(0b11)` (20 R53, 30 R90). -/
  | invalid3 (consumeBits : Nat)
  /-- NEW: operand the Coding to bind. -/
  | new (coding : Coding)
  /-- DECODE: operands the capacity of `dst` and the bytes of `src`. -/
  | decode (dstCap : Nat) (src : List Byte)
  /-- FLUSH: operand the capacity of `dst`. -/
  | flush (dstCap : Nat)
  /-- ALIGNED: no operand. -/
  | aligned
  deriving DecidableEq, Repr

/-- The instruction is a pointer word of the table, not a command. -/
def Instr.isPointer : Instr → Bool
  | .descend _ _ => true
  | .ret _ _ => true
  | .invalid0 _ => true
  | .invalid3 _ => true
  | .new _ => false
  | .decode _ _ => false
  | .flush _ => false
  | .aligned => false

end Sys2Proof
end

