-- ==== Sys2Proof/WellFormed.lean ====
section
/-! DEFINITION. Which instructions an encoding can hold (30 R83, R84, R86). The static conditions on a whole Coding
(20 R56) are `Sys2Proof/Machine/CodingCheck.lean`. -/

namespace Sys2Proof

/-- `consumeBits` fits its six bits (30 R83). -/
def consumeBitsFit (consumeBits : Nat) : Bool := decide (consumeBits < 64)

/-- The offset fits `tw` bits in two's complement: "the identity on abstract pointers whose offset fits `TARGET_W`
bits" (30 R84, R86). -/
def offsetFits (tw : Nat) (offset : Int) : Bool :=
  decide (-(2 ^ (tw - 1) : Int) ≤ offset) && decide (offset < (2 ^ (tw - 1) : Int))

/-- The instruction can be encoded with a `target` field of `tw` bits; a Coding is one laid out for it. -/
def Instr.wellFormedAt (tw : Nat) : Instr → Bool
  | .descend consumeBits offset => consumeBitsFit consumeBits && offsetFits tw offset
  | .ret consumeBits _ => consumeBitsFit consumeBits
  | .invalid0 consumeBits => consumeBitsFit consumeBits
  | .invalid3 consumeBits => consumeBitsFit consumeBits
  | .new coding => decide (coding.targetW = tw) && coding.canonical
  | .decode _ _ => true
  | .flush _ => true
  | .aligned => true

/-- The instruction can be encoded at the default `TARGET_W`. -/
def Instr.wellFormed (i : Instr) : Bool := i.wellFormedAt Config.targetW

end Sys2Proof
end

