-- ==== Sys2Proof/Decode.lean ====
section
/-! DEFINITION. The two encoded formats and no others (30 R80): the pointer word `PTR` of the Coding table and the
command `CMD`. First the decoder, then the encoder, written from the same rules (30 R81 to R87). -/

namespace Sys2Proof

/-! ### The pointer word -/

/-- Tag `0b01` (30 R82). -/
def kindDescend : BitVec 2 := 0b01#2
/-- Tag `0b10` (30 R82). -/
def kindReturn : BitVec 2 := 0b10#2
/-- Tag `0b00`, an invalid kind (30 R82). -/
def kindInvalid0 : BitVec 2 := 0b00#2
/-- Tag `0b11`, an invalid kind (30 R82). -/
def kindInvalid3 : BitVec 2 := 0b11#2

/-- `p.consumeBits = zext_6(word[5:0])` (30 R83). -/
def ptrConsumeBits {tw : Nat} (w : BitVec (tw + 8)) : Nat := (w.extractLsb' 0 6).toNat
/-- `p.kind = word[7:6]` (30 R81). -/
def ptrKind {tw : Nat} (w : BitVec (tw + 8)) : BitVec 2 := w.extractLsb' 6 2
/-- `p.target = word[PTR_W-1:8]` (30 R81). -/
def ptrTarget {tw : Nat} (w : BitVec (tw + 8)) : BitVec tw := w.extractLsb' 8 tw
/-- `p.offset = sext_TARGET_W(target)` (30 R84). -/
def ptrOffset {tw : Nat} (w : BitVec (tw + 8)) : Int := (ptrTarget w).toInt
/-- `p.symbol = word[15:8]`, the low 8 bits of `target` (30 R85). -/
def ptrSymbol {tw : Nat} (w : BitVec (tw + 8)) : Byte := (ptrTarget w).setWidth 8
/-- The bits of `target` above its bit 7, reserved in a Return pointer (30 R85, 20 R56 WF5). -/
def ptrReserved {tw : Nat} (w : BitVec (tw + 8)) : Nat := (ptrTarget w).toNat / 256

/-- From word to abstract pointer, the total decode function of format `PTR` (30 R86), for any `TARGET_W`. -/
def decodePtr {tw : Nat} (w : BitVec (tw + 8)) : Instr :=
  if ptrKind w = kindDescend then .descend (ptrConsumeBits w) (ptrOffset w)
  else if ptrKind w = kindReturn then .ret (ptrConsumeBits w) (ptrSymbol w)
  else if ptrKind w = kindInvalid0 then .invalid0 (ptrConsumeBits w)
  else .invalid3 (ptrConsumeBits w)

/-! ### The command word -/

/-- A command as the host presents it: the operation code `op[1:0]` with the operands carried beside it; a command
ignores the operands it does not take (30 R87). -/
structure Request where
  op     : BitVec 2
  coding : Coding
  dstCap : Nat
  src    : List Byte
  deriving DecidableEq, Repr

/-- `0b00` NEW, `0b01` DECODE, `0b10` FLUSH, `0b11` ALIGNED (30 R87). -/
def decodeCmd (q : Request) : Instr :=
  if q.op = 0b00#2 then .new q.coding
  else if q.op = 0b01#2 then .decode q.dstCap q.src
  else if q.op = 0b10#2 then .flush q.dstCap
  else .aligned

/-- A command code alone, every operand beside it zero: no capacity, no bytes, and the Coding of an all-zero table
(log entry 8). -/
def Request.bare (op : BitVec 2) : Request := { op := op, coding := Coding.blank, dstCap := 0, src := [] }

/-! ### Bits of either format -/

/-- Why a string of bits is no instruction. -/
inductive DecodeReject where
  /-- Neither the 16 or more bits of a pointer word nor the 2 bits (one byte) of a command code (30 R80; 00 R8). -/
  | noSuchLength
  /-- A bit above the format's width is set: a byte that holds more than a 2-bit command code. -/
  | bitsAboveTheFormat
  deriving DecidableEq, Repr

/-- The least width in bits of format `PTR`, which is `TARGET_W + 8` (30 R80), and that of format `CMD` as whole
bytes. The two lengths never meet. -/
def minPtrBits : Nat := Config.minTargetW + 8
@[inherit_doc minPtrBits]
def cmdBits : Nat := 8

/-- Decode `nbits` bits, by the length of the format, a pointer word at `TARGET_W = nbits - 8`; total, rejecting by
name. -/
def decodeBits (nbits w : Nat) : Except DecodeReject Instr :=
  if minPtrBits ≤ nbits then
    (if w < 2 ^ nbits then .ok (decodePtr (tw := nbits - 8) (BitVec.ofNat (nbits - 8 + 8) w))
    else .error .bitsAboveTheFormat)
  else if nbits = cmdBits then
    (if w < 4 then .ok (decodeCmd (Request.bare (BitVec.ofNat 2 w))) else .error .bitsAboveTheFormat)
  else .error .noSuchLength

/-- The instruction the decoder reads from a row of the opcode table. -/
def decodeTableWord (nbits w : Nat) : Option Instr :=
  match decodeBits nbits w with
  | .ok i => some i
  | .error _ => none

/-! ### The encoder -/

/-- `word = {target, kind, consumeBits}` (30 R86). -/
def packPtr {tw : Nat} (target : BitVec tw) (kind : BitVec 2) (consumeBits : Nat) : BitVec (tw + 8) :=
  target ++ (kind ++ BitVec.ofNat 6 consumeBits : BitVec 8)

/-- What is fetched: a pointer word of the table, or a command with its operands. -/
inductive Encoded (tw : Nat) where
  | ptr (w : BitVec (tw + 8))
  | cmd (q : Request)
  deriving DecidableEq, Repr

/-- Encode: `target = offset mod 2^TARGET_W` for Descend, `target = zext(symbol)` for Return (30 R86); a `target` of
zero for an invalid kind, which gives it no meaning (log entry 9); the codes of 30 R87 for the commands, with the
operands they do not take left zero. -/
def encodeAt (tw : Nat) : Instr → Encoded tw
  | .descend consumeBits offset => .ptr (packPtr (BitVec.ofInt tw offset) kindDescend consumeBits)
  | .ret consumeBits symbol => .ptr (packPtr (symbol.setWidth tw) kindReturn consumeBits)
  | .invalid0 consumeBits => .ptr (packPtr (0#tw) kindInvalid0 consumeBits)
  | .invalid3 consumeBits => .ptr (packPtr (0#tw) kindInvalid3 consumeBits)
  | .new coding => .cmd { Request.bare 0b00#2 with coding := coding }
  | .decode dstCap src => .cmd { Request.bare 0b01#2 with dstCap := dstCap, src := src }
  | .flush dstCap => .cmd { Request.bare 0b10#2 with dstCap := dstCap }
  | .aligned => .cmd (Request.bare 0b11#2)

/-- The words of a well-formed instruction at the default `TARGET_W`. -/
def encode (i : Instr) : Encoded Config.targetW := encodeAt Config.targetW i

/-- Decode whatever was fetched, for any `TARGET_W`. -/
def decodeAt {tw : Nat} : Encoded tw → Instr
  | .ptr w => decodePtr w
  | .cmd q => decodeCmd q

end Sys2Proof
end

