-- ==== Sys2Proof/Machine/CodingCheck.lean ====
section
/-! DEFINITION. `WF(coding)`, the static check of 20 R56 that the model makes once, at `NEW`. A word the table's list
does not hold is all-zero, an invalid kind that asks for no bits, and breaks none of WF1 to WF5, so the check runs
over the listed cells. -/

namespace Sys2Proof

/-- WF1, WF3, WF4 and WF5 of one pointer word `w` of node `i` (20 R56). -/
def Coding.pointerOk (c : Coding) (i : Nat) (w : PtrWord c.targetW) : Bool :=
  match decodePtr w with
  | .descend consumeBits offset =>
    decide (consumeBits ≤ c.treeShift) && decide (1 ≤ consumeBits) &&
      decide (0 ≤ (i : Int) + offset) && decide ((i : Int) + offset < (c.nodeCount : Int))
  | .ret consumeBits _ => decide (consumeBits ≤ c.treeShift) && decide (ptrReserved w = 0)
  | .invalid0 consumeBits => decide (consumeBits ≤ c.treeShift)
  | .invalid3 consumeBits => decide (consumeBits ≤ c.treeShift)
  | .new _ => false
  | .decode _ _ => false
  | .flush _ => false
  | .aligned => false

/-- WF2: `0 ≤ treeIndexStart < NODE_COUNT` and `NODE_COUNT ≥ 1` and `1 ≤ treeShift ≤ 25` (20 R56). -/
def Coding.constantsOk (c : Coding) : Bool :=
  decide (c.treeIndexStart < c.nodeCount) && decide (1 ≤ c.nodeCount) &&
    decide (Config.minTreeShift ≤ c.treeShift) && decide (c.treeShift ≤ Config.maxTreeShift)

/-- The whole check, over a canonical representation. -/
def Coding.wf (c : Coding) : Bool :=
  c.canonical && c.constantsOk && c.table.all (fun cell => c.pointerOk (cell.1 / c.slots) cell.2)

end Sys2Proof
end

