-- ==== Sys2Proof/Machine/State.lean ====
section
/-! DEFINITION. The state of one Decoder, of the command it is running and of the host that drives it
(10 R20 to R36; 20 R50, R58, R59; 30 R88; 00 R5), and the reasons a step can stop. -/

namespace Sys2Proof.Machine

/-- FCAUSE: code 0 means no fault, code 1 is `CODING_CORRUPT`, and no other code exists (60 R190). -/
inductive FaultCause where
  | noFault
  | codingCorrupt
  deriving DecidableEq, Repr

/-- The number FCAUSE reads as (60 R190). -/
def FaultCause.code : FaultCause → Nat
  | .noFault => 0
  | .codingCorrupt => 1

/-- Which of the two commands that run EXTRACT is in progress (42 R162, R170). -/
inductive RunKind where
  | decode
  | flush
  deriving DecidableEq, Repr

/-- Where a running command stands: extracting, or at the reason EXTRACT stopped for (41 R135). -/
inductive Phase where
  | extract
  | needInput
  | dstFull
  deriving DecidableEq, Repr

/-- A command in progress: the operands and cursors that "live only for the duration of one command" (10 R20, R29).
Between commands there is none (42 R160). `nDst` is the length of `State.dst`. -/
structure Run where
  kind   : RunKind
  /-- The capacity of `dst` (20 R59). -/
  dstCap : Nat
  /-- The space `SRC`: element `k` is the byte at address `k` (20 R50, R58). -/
  src    : List Byte
  /-- `nSrc`, the source cursor `k`: bytes ingested so far (40 R111, 42 R162). -/
  nSrc   : Nat
  phase  : Phase
  deriving DecidableEq, Repr

/-- The response to a command (30 R88). With `fault = 1` "every other field of the response is unspecified" and "a
model returns no value for them" (60 R196). The bytes of `dst` are the first `nDst` of `State.dst`. -/
inductive Response where
  | fault
  | ok (flag : Bool) (nDst nSrc : Nat)
  deriving DecidableEq, Repr

/-- What the model's exception carries "as information for the reader of a trace" (60 R190). -/
structure CorruptInfo where
  treeIndex : Int
  sel       : Nat
  kind      : BitVec 2
  deriving DecidableEq, Repr

/-- The machine. -/
structure State where
  /-- The Coding in use; `none` on a Decoder that has never had a `NEW` (10 R26, R35). -/
  coding      : Option Coding
  /-- The current node, this block's program counter (10 R24). -/
  treeIndex   : Int
  /-- The accumulator word, never masked (10 R21, R31). -/
  heldBits    : AccWord
  /-- How many low bits of `heldBits` are valid and unconsumed (10 R22). -/
  heldCount   : Nat
  /-- FAULT, sticky (10 R28). -/
  fault       : Bool
  /-- FCAUSE (10 R28). -/
  fcause      : FaultCause
  /-- The command in progress, if one is (10 R29). -/
  run         : Option Run
  /-- The space `DST` of the latest DECODE or FLUSH: the bytes it wrote, element `k` at address `k` (20 R50, R59). -/
  dst         : List Byte
  /-- The response to the latest command (30 R88). -/
  response    : Option Response
  /-- The host: the commands it will present, in order (00 R5, 42 R160). -/
  requests    : List Request
  /-- The model's own: what the latest `CodingCorrupt` carried; no instruction reads it (60 R190, log entry 4). -/
  corruptInfo : Option CorruptInfo
  /-- The model's own: which free value comes next (log entry 2). -/
  freeCount   : Nat
  deriving DecidableEq, Repr

/-- The machine stops with no fault: the one exception the spec has, `CodingCorrupt`, is taken, as a next state
(60 R190, R196), and the other undefined cases are to be refused and never to be faults (93 U2, U4). So this type
has no constructor. -/
inductive Fault where
  deriving DecidableEq, Repr

/-- Why the model gives no meaning. All of them are safe: the model stops where hardware would go on. -/
inductive Refusal where
  /-- Raised by no meaning: an instruction that has none yet. Safe. -/
  | notModelled (mnemonic : String)
  /-- Raised by NEW on a Coding that fails the check of 20 R56 (42 R161, 93 U1). Safe. -/
  | codingNotWellFormed
  /-- Raised by DECODE, FLUSH and ALIGNED on a Decoder that has never had a `NEW` (42 R177, 92 D13). Safe. -/
  | unconstructed
  /-- Raised by every command while another is in progress on the Decoder (20 R66, 92 D21, 93 U6). Safe. -/
  | overlappingCommand
  /-- Raised by a pointer word executed outside an iteration of EXTRACT that has room in `dst`: a pointer word is
  "invoked only through EXTRACT" (41 R130, R135). Safe. -/
  | noExtraction
  /-- Raised by a LOOKUP outside the table, possible only with a Coding that fails 20 R56 (93 U4). Safe. -/
  | lookupOutsideTable
  /-- Raised by DECODE and FLUSH when their loop outruns the bound of 41 R138 and 42 R163, possible only with a Coding
  that fails 20 R56 (70 R236, 93 U2: such a Coding is refused). Safe. -/
  | workBoundExceeded
  deriving DecidableEq, Repr

/-- What a step answers. -/
abbrev Result := Host.Outcome State Fault Refusal

/-- Right after power-on: a Decoder that has never had a `NEW`, no command presented. "Before the first `NEW` the state
of a Decoder is unspecified" (10 R35), so the registers' values are a DESIGN CHOICE, log entry 1; what the block's
reset leaves, which is `NEW` with its Coding (70 R220, 10 R34), is `State.construct` of `Machine/Ops.lean`. -/
def State.reset : State :=
  { coding := none, treeIndex := 0, heldBits := 0#32, heldCount := 0, fault := false, fcause := .noFault,
    run := none, dst := [], response := none, requests := [], corruptInfo := none, freeCount := 0 }

end Sys2Proof.Machine
end

