-- ==== Sys2Proof/Machine/Flags.lean ====
section
/-! DEFINITION. The conditions the block computes. It has no condition codes (10 R29): each is computed afresh from
the registers. FAULT and FCAUSE are written by `State.raiseCodingCorrupt` and `State.construct` alone. -/

namespace Sys2Proof.Machine

/-- The `aligned` result, and `finished` of FLUSH: all 32 bits of `heldBits` are zero, valid and stale alike;
`heldCount` is not consulted (42 R170, R175; 93 U7). -/
def State.alignedFlag (s : State) : Bool := s.heldBits == 0x00000000#32

/-- The room test of REFILL: `32 - heldCount ≥ 8` (40 R111). -/
def State.hasRoom (s : State) : Bool := decide (8 ≤ 32 - s.heldCount)

/-- STALLCHK: the pointer asks for more bits than are held (40 R113). -/
def State.stalls (s : State) (consumeBits : Nat) : Bool := decide (s.heldCount < consumeBits)

/-- The capacity test of EXTRACT: `dst` is full (41 R135). -/
def State.dstFull (s : State) (r : Run) : Bool := decide (r.dstCap ≤ s.dst.length)

/-- All of `src` has been ingested (42 R162). -/
def Run.srcUsedUp (r : Run) : Bool := decide (r.src.length ≤ r.nSrc)

end Sys2Proof.Machine
end

