-- ==== Sys2Proof/Machine/Operands.lean ====
section
/-! DEFINITION. The one operand assembled from bits at run time, the selector (30 R89), by SELECT (40 R112). -/

namespace Sys2Proof.Machine

/-- `mask(n) = 2^n - 1`, as a 32-bit word (00 R9). -/
def mask (n : Nat) : AccWord := BitVec.ofNat 32 (2 ^ n - 1)

/-- SELECT: the top `t` bits of the valid window, or all of it with zero bits below when fewer are held (40 R112). -/
def selector (t : Nat) (heldBits : AccWord) (heldCount : Nat) : Nat :=
  if t ≤ heldCount then ((heldBits >>> (heldCount - t)) &&& mask t).toNat
  else ((heldBits <<< (t - heldCount)) &&& mask t).toNat

/-- SELECT on the machine's registers. -/
def State.select (s : State) (c : Coding) : Nat := selector c.treeShift s.heldBits s.heldCount

/-- `w = heldBits[heldCount-1 : 0]`, the valid window, as a number (10 R23, 40 R112). -/
def State.window (s : State) : Nat := s.heldBits.toNat % 2 ^ s.heldCount

end Sys2Proof.Machine
end

