-- ==== Sys2Proof/Machine/Ops.lean ====
section
/-! DEFINITION. The named operations over the registers and the spaces SRC, DST and TBL, and taking the one exception
(files 40, 41, 42 and 60 of the spec). -/

namespace Sys2Proof.Machine

/-! ### The accumulator -/

/-- The source cursor moves on by one byte. -/
def Run.advance (r : Run) : Run := { r with nSrc := r.nSrc + 1 }

/-- REFILL: shift one byte in at the low end, move the cursor (40 R111). -/
def State.refill (s : State) (b : Byte) : State :=
  { s with
    heldBits := (s.heldBits <<< 8) ||| b.setWidth 32
    heldCount := s.heldCount + 8
    run := s.run.map Run.advance }

/-- REFILL_ALL over the bytes of `SRC` not yet ingested: greedy, while there is room and input remains (40 R115). -/
def State.refillAll : List Byte → State → State
  | [], s => s
  | b :: rest, s => if s.hasRoom then State.refillAll rest (s.refill b) else s

/-- CONSUME: only the count shrinks; `heldBits` is not written (40 R114). -/
def State.consume (s : State) (consumeBits : Nat) : State := { s with heldCount := s.heldCount - consumeBits }

/-! ### The tree walker -/

/-- `treeIndex <- t` (00 R11). -/
def State.moveTo (s : State) (t : Int) : State := { s with treeIndex := t }

/-- `MemWrite(DST, n, 1, v)` with `n` the number of bytes written so far (00 R11, 20 R59). -/
def State.emit (s : State) (v : Byte) : State := { s with dst := s.dst ++ [v] }

/-- LOOKUP: the pointer word at `(treeIndex, sel)` of the table, decoded at the Coding's `TARGET_W` (41 R131). -/
def State.lookup (s : State) : Option Instr :=
  match s.coding with
  | none => none
  | some c => (c.tblRead s.treeIndex (s.select c)).map decodePtr

/-! ### The command in progress -/

/-- The running command goes to another phase. -/
def Run.inPhase (r : Run) (p : Phase) : Run := { r with phase := p }

/-- EXTRACT stops, or is run again (41 R135, 42 R162). -/
def State.setPhase (s : State) (p : Phase) : State := { s with run := s.run.map (fun r => r.inPhase p) }

/-- A DECODE or FLUSH begins: nothing written to `dst` yet, nothing ingested, EXTRACT first (42 R162, R170). -/
def State.startRun (s : State) (kind : RunKind) (dstCap : Nat) (src : List Byte) : State :=
  { s with dst := [], run := some { kind := kind, dstCap := dstCap, src := src, nSrc := 0, phase := .extract } }

/-- A command ends with a response (30 R88). -/
def State.respond (s : State) (r : Response) : State := { s with run := none, response := some r }

/-- The response of a command that ran EXTRACT to a stop (42 R162, R170; 30 R88): `flag` is `finished` for FLUSH and
0 for DECODE, and only DECODE counts bytes of `src`. -/
def State.runResponse (s : State) (r : Run) : Response :=
  match r.kind with
  | .decode => .ok false s.dst.length r.nSrc
  | .flush => .ok s.alignedFlag s.dst.length 0

/-- An iteration of EXTRACT with room in `dst` is under way on a constructed Decoder that is not faulted: the Coding
it walks and its command. "A faulted Decoder runs no EXTRACT" (60 R197). -/
def State.extraction (s : State) : Option (Coding × Run) :=
  match s.coding, s.run with
  | some c, some r =>
    if s.fault = false ∧ r.phase = .extract ∧ s.dstFull r = false then some (c, r) else none
  | _, _ => none

/-! ### Reset and the exception -/

/-- What `NEW`, which is also the hardware reset, leaves (42 R161, 10 R34, 70 R220). -/
def State.construct (s : State) (c : Coding) : State :=
  { s with
    coding := some c
    treeIndex := (c.treeIndexStart : Int)
    heldBits := 0x00000000#32
    heldCount := 0
    fault := false
    fcause := .noFault
    corruptInfo := none }

/-- Taking `CodingCorrupt`, the one exception (60 R190, R196): FAULT and FCAUSE are set, the command ends at once with
`fault = 1`, and `heldBits`, `heldCount` and `treeIndex` are unspecified from here on: free values, log entry 2. The
bytes of earlier iterations stay written (60 R191). There is no return from it but `NEW` (60 R197). -/
def State.raiseCodingCorrupt (s : State) (info : CorruptInfo) : State :=
  { s with
    treeIndex := Config.freeTreeIndex s.freeCount
    heldBits := Config.freeHeldBits s.freeCount
    heldCount := (Config.freeHeldCount s.freeCount).toNat
    fault := true
    fcause := .codingCorrupt
    run := none
    response := some .fault
    corruptInfo := some info
    freeCount := s.freeCount + 1 }

end Sys2Proof.Machine
end

