-- ==== Sys2Proof/Machine/Pointers.lean ====
section
/-! DEFINITION. The meanings of the four pointer words: one iteration of EXTRACT from the moment the pointer has been
looked up (41 R131 to R136). -/

namespace Sys2Proof.Machine

/-- What every pointer word goes through before its kind is looked at (41 R136): the capacity test found room and the
lookup was made (`State.extraction`), then STALLCHK, which stops with NeedInput and leaves the registers as they are
(40 R113), then CONSUME (40 R114), then `dispatch` on the kind. -/
def takePointer (consumeBits : Nat) (dispatch : Coding → State → State) (s : State) : Result :=
  match s.extraction with
  | none => .refused .noExtraction
  | some (c, _) =>
    if s.stalls consumeBits then .next (s.setPhase .needInput)
    else .next (dispatch c (s.consume consumeBits))

/-- DESCEND: `treeIndex <- treeIndex + p.offset`, nothing written (41 R132). -/
def execDescend (consumeBits : Nat) (offset : Int) (s : State) : Result :=
  takePointer consumeBits (fun _ t => t.moveTo (t.treeIndex + offset)) s

/-- RETURN: write the symbol, advance the output cursor, back to the root (41 R133). -/
def execRet (consumeBits : Nat) (symbol : Byte) (s : State) : Result :=
  takePointer consumeBits (fun c t => (t.emit symbol).moveTo (c.treeIndexStart : Int)) s

/-- The dispatch on an invalid kind: `raise CodingCorrupt(treeIndex, sel, p.kind)`, with the selector of the lookup,
which was made before CONSUME (41 R134, R136). -/
def corruptAt (s : State) (kind : BitVec 2) (c : Coding) (t : State) : State :=
  t.raiseCodingCorrupt { treeIndex := t.treeIndex, sel := s.select c, kind := kind }

/-- INVALID0: kind `0b00` (41 R134). -/
def execInvalid0 (consumeBits : Nat) (s : State) : Result :=
  takePointer consumeBits (corruptAt s kindInvalid0) s

/-- INVALID3: kind `0b11` (41 R134). -/
def execInvalid3 (consumeBits : Nat) (s : State) : Result :=
  takePointer consumeBits (corruptAt s kindInvalid3) s

end Sys2Proof.Machine
end

