-- ==== Sys2Proof/Machine/Extract.lean ====
section
/-! DEFINITION. The loop a DECODE or FLUSH is: EXTRACT (41 R135), the stops of 42 R162 and R170, REFILL_ALL (40 R115).
One `microStep` is one iteration of EXTRACT or one turn of the command around it; a command is its micro-steps run to
the response (42 R160: the host sees the state only between commands). -/

namespace Sys2Proof.Machine

/-- Execute the pointer word that LOOKUP fetched. The decoder of pointer words never gives a command. -/
def runPointer (i : Instr) (s : State) : Result :=
  match i with
  | .descend consumeBits offset => execDescend consumeBits offset s
  | .ret consumeBits symbol => execRet consumeBits symbol s
  | .invalid0 consumeBits => execInvalid0 consumeBits s
  | .invalid3 consumeBits => execInvalid3 consumeBits s
  | .new _ => .refused .noExtraction
  | .decode _ _ => .refused .noExtraction
  | .flush _ => .refused .noExtraction
  | .aligned => .refused .noExtraction

/-- An iteration of EXTRACT: the capacity test first, then SELECT and LOOKUP, then the pointer (41 R135, R136). -/
def extractStep (r : Run) (s : State) : Result :=
  if s.dstFull r then .next (s.setPhase .dstFull)
  else match s.lookup with
    | none => .refused .lookupOutsideTable
    | some pointer => runPointer pointer s

/-- EXTRACT stopped with NeedInput: FLUSH responds; DECODE responds if `src` is used up, else refills and extracts
again (42 R162, R170). -/
def afterNeedInput (r : Run) (s : State) : State :=
  match r.kind with
  | .flush => s.respond (s.runResponse r)
  | .decode =>
    if r.srcUsedUp then s.respond (s.runResponse r)
    else ((State.refillAll (r.src.drop r.nSrc) s).setPhase .extract)

/-- One micro-step of the command in progress; with none in progress nothing happens. -/
def microStep (s : State) : Result :=
  match s.run with
  | none => .next s
  | some r =>
    match r.phase with
    | .extract => extractStep r s
    | .dstFull => .next (s.respond (s.runResponse r))
    | .needInput => .next (afterNeedInput r s)

/-- Run the command in progress to its response, in at most `fuel` micro-steps. -/
def runCommand : Nat → State → Result
  | 0, s =>
    match s.run with
    | none => .next s
    | some _ => .refused .workBoundExceeded
  | fuel + 1, s =>
    match s.run with
    | none => .next s
    | some _ =>
      match microStep s with
      | .next t => runCommand fuel t
      | .fault f => .fault f
      | .refused r => .refused r

/-- Weight of a phase in the work bound: an extraction still has to stop, a stop still has to be answered. -/
def Phase.weight : Phase → Nat
  | .extract => 2
  | .needInput => 1
  | .dstFull => 1

/-- The work left in the command in progress, after the bounds of 41 R138 and 42 R163: a RETURN uses up capacity, a
DESCEND at least one held bit (WF4), a refill phase at least one byte of `src` and brings 8 bits a byte. -/
def State.work (s : State) : Nat :=
  match s.run with
  | none => 0
  | some r => 10 * (r.src.length - r.nSrc) + s.heldCount + (r.dstCap - s.dst.length) + r.phase.weight

/-- The command in progress, run to its end. -/
def runToEnd (s : State) : Result := runCommand s.work s

end Sys2Proof.Machine
end

