-- ==== Sys2Proof/Machine/Commands.lean ====
section
/-! DEFINITION. The meanings of the four commands, each one atomic transition (42 R160 to R177). -/

namespace Sys2Proof.Machine

/-- What DECODE, FLUSH and ALIGNED begin with: one command at a time (92 D21), never on an unconstructed Decoder
(92 D13), and on a faulted one no change but the answer `fault = 1` (42 R177). -/
def onConstructed (s : State) (command : Result) : Result :=
  match s.run, s.coding with
  | some _, _ => .refused .overlappingCommand
  | none, none => .refused .unconstructed
  | none, some _ => if s.fault then .next (s.respond .fault) else command

/-- NEW (42 R161): the Coding must pass the check of 20 R56; construction never fails on one that does. -/
def execNew (coding : Coding) (s : State) : Result :=
  match s.run with
  | some _ => .refused .overlappingCommand
  | none =>
    if coding.wf then .next ((s.construct coding).respond (.ok false 0 0))
    else .refused .codingNotWellFormed

/-- DECODE (42 R162). -/
def execDecode (dstCap : Nat) (src : List Byte) (s : State) : Result :=
  onConstructed s (runToEnd (s.startRun .decode dstCap src))

/-- FLUSH (42 R170): extraction only, then the test of the whole word. -/
def execFlush (dstCap : Nat) (s : State) : Result :=
  onConstructed s (runToEnd (s.startRun .flush dstCap []))

/-- ALIGNED (42 R175). -/
def execAligned (s : State) : Result :=
  onConstructed s (.next (s.respond (.ok s.alignedFlag 0 0)))

end Sys2Proof.Machine
end

