-- ==== Sys2Proof/Machine/Dispatch.lean ====
section
/-! DEFINITION. The meaning of every instruction, one arm a constructor. -/

namespace Sys2Proof.Machine

def exec (i : Instr) (s : State) : Host.Outcome State Fault Refusal :=
  match i with
  | .descend consumeBits offset => Sys2Proof.Machine.execDescend consumeBits offset s
  | .ret consumeBits symbol => Sys2Proof.Machine.execRet consumeBits symbol s
  | .invalid0 consumeBits => Sys2Proof.Machine.execInvalid0 consumeBits s
  | .invalid3 consumeBits => Sys2Proof.Machine.execInvalid3 consumeBits s
  | .new coding => Sys2Proof.Machine.execNew coding s
  | .decode dstCap src => Sys2Proof.Machine.execDecode dstCap src s
  | .flush dstCap => Sys2Proof.Machine.execFlush dstCap s
  | .aligned => Sys2Proof.Machine.execAligned s

end Sys2Proof.Machine
end

