-- ==== Sys2Proof/Machine/Load.lean ====
section
/-! DEFINITION. What the next step fetches, and placing an instruction there from outside (log entry 7): a command at
the head of the host's requests, a pointer word at the address of the table the walker looks up next. -/

namespace Sys2Proof.Machine

/-- The host presents its next command (00 R5, 42 R160): the request, and the machine with the rest still to come. -/
def State.nextRequest (s : State) : Option (Request × State) :=
  match s.requests with
  | [] => none
  | q :: rest => some (q, { s with requests := rest })

/-- A constructed Decoder whose table has words of `TARGET_W = tw` and whose next lookup lies in it: `s` itself if it is
one, else `s` after `NEW` on the Coding of an all-zero table. -/
def State.walkable (s : State) (tw : Nat) : State :=
  match s.coding with
  | none => s.construct (Coding.blankAt tw)
  | some c =>
    if c.targetW = tw ∧ c.inTable s.treeIndex (s.select c) = true then s else s.construct (Coding.blankAt tw)

/-- An unfaulted machine in an iteration of EXTRACT with room in `dst`: `s` itself if it is, else `s` in a FLUSH with
room for one more byte. -/
def State.extracting (s : State) : State :=
  match s.extraction with
  | some _ => s
  | none =>
    { s with
      fault := false
      fcause := .noFault
      run := some { kind := .flush, dstCap := s.dst.length + 1, src := [], nSrc := 0, phase := .extract } }

/-- Put the word `w` at the address of the table that the next LOOKUP reads. -/
def State.writeLookup (s : State) (w : Nat) : State :=
  match s.coding with
  | none => s
  | some c =>
    { s with
      coding := some { c with
        table := c.table.write (c.flatAddress s.treeIndex.toNat (s.select c)) (BitVec.ofNat (c.targetW + 8) w) } }

/-- The next step looks up and runs exactly the pointer word `w` of `TARGET_W = tw`. -/
def State.placePointer (s : State) (tw w : Nat) : State := ((s.walkable tw).writeLookup w).extracting

/-- The next step takes exactly the command `q`; a command other than `NEW` finds a constructed Decoder. -/
def State.placeCommand (s : State) (q : Request) : State :=
  let t := if q.op = 0b00#2 ∨ s.coding.isSome then s else s.construct Coding.blank
  { t with run := none, requests := q :: s.requests }

end Sys2Proof.Machine
end

