-- ==== Sys2Proof/Machine/Step.lean ====
section
/-! DEFINITION. One step. Between commands the host presents its next command, which is one atomic transition
(42 R160), or has none, and the Decoder is idle and holds its state (60 R205). In a state that stands inside a command
(none is seen from reset on, since commands are atomic) a step is one micro-step of it: in EXTRACT it fetches the
pointer word at `(treeIndex, sel)` and runs it. -/

namespace Sys2Proof.Machine

def step (s : State) : Host.Outcome State Fault Refusal :=
  match s.run with
  | some _ => microStep s
  | none =>
    match s.nextRequest with
    | none => .next s
    | some (q, t) => exec (decodeCmd q) t

/-- `s` with the instruction of `nbits` bits `w` stored where `step` fetches its next instruction (log entry 7). -/
def State.withFetchWord (s : State) (nbits w : Nat) : State :=
  if minPtrBits ≤ nbits then s.placePointer (nbits - 8) w
  else if nbits = cmdBits then s.placeCommand (Request.bare (BitVec.ofNat 2 w))
  else s

end Sys2Proof.Machine
end

