-- ==== Sys2Proof/Machine/Written.lean ====
section
/-! DEFINITION. The written form of Codings, commands and responses, and the pseudo-instructions LEAF, LINK and VOID
with their expansion (30 R92, R93; 92 D10). Only the spec's test vectors use it; no instruction reads it. -/

namespace Sys2Proof

/-! ### Pseudo-instructions -/

/-- A line of a node: one slot with its pointer, or a pseudo-instruction with a codeword prefix (30 R92, R93). -/
inductive NodeLine where
  | slot (selector : Nat) (pointer : Instr)
  | leaf (bits : List Bool) (symbol : Byte)
  | link (bits : List Bool) (offset : Int)
  | void (bits : List Bool)
  deriving DecidableEq, Repr

/-- A bit string read as a number, first bit highest. -/
def bitsValue (bits : List Bool) : Nat := bits.foldl (fun n b => 2 * n + b.toNat) 0

/-- The `2^(treeShift - c)` slots whose selector begins with the bits (30 R93). -/
def prefixSlots (treeShift : Nat) (bits : List Bool) : List Nat :=
  (List.range (2 ^ (treeShift - bits.length))).map
    (fun k => bitsValue bits * 2 ^ (treeShift - bits.length) + k)

/-- The pointers a line stands for, each with its slot (30 R93). -/
def NodeLine.expand (treeShift : Nat) : NodeLine → List (Nat × Instr)
  | .slot selector pointer => [(selector, pointer)]
  | .leaf bits symbol => (prefixSlots treeShift bits).map (fun s => (s, .ret bits.length symbol))
  | .link bits offset => (prefixSlots treeShift bits).map (fun s => (s, .descend bits.length offset))
  | .void bits => (prefixSlots treeShift bits).map (fun s => (s, .invalid0 bits.length))

/-- The word of a pointer at `TARGET_W = tw`. -/
def pointerWord (tw : Nat) (i : Instr) : PtrWord tw :=
  match encodeAt tw i with
  | .ptr w => w
  | .cmd _ => Memory.unlisted

/-- Write one node's lines into a Coding's table. -/
def Coding.writeNode (c : Coding) (i : Nat) (lines : List NodeLine) : Coding :=
  { c with
    table := (lines.flatMap (NodeLine.expand c.treeShift)).foldl
      (fun m p => m.write (c.flatAddress i p.1) (pointerWord c.targetW p.2)) c.table }

/-- The Coding a written form stands for, laid out for a `TARGET_W`: its header, then its nodes in order (30 R92). -/
def Coding.ofWritten (targetW treeShift treeIndexStart : Nat) (nodes : List (List NodeLine)) : Coding :=
  nodes.zipIdx.foldl (fun c n => c.writeNode n.2 n.1)
    { targetW := targetW, treeShift := treeShift, treeIndexStart := treeIndexStart, nodeCount := nodes.length,
      table := [] }

/-! ### Text -/

/-- A byte as `0xNN`. -/
def hexByte (b : Byte) : String :=
  "0x" ++ String.ofList [(Nat.digitChar (b.toNat / 16)).toUpper, (Nat.digitChar (b.toNat % 16)).toUpper]

/-- A number in binary, `n` digits. -/
def binary (n v : Nat) : String :=
  String.ofList ((List.range n).map (fun k => if v.testBit (n - 1 - k) then '1' else '0'))

/-- An offset with its sign. -/
def signedText (v : Int) : String :=
  if v < 0 then "-" ++ toString v.natAbs else "+" ++ toString v.natAbs

/-- A list of bytes, `[0xNN, ...]`. -/
def bytesText (bs : List Byte) : String := "[" ++ String.intercalate ", " (bs.map hexByte) ++ "]"

/-- The written form of a pointer, or of a command of a trace; `name` is the Coding's name (30 R92). -/
def Instr.written (name : String) : Instr → String
  | .descend consumeBits offset => "DESCEND " ++ toString consumeBits ++ ", " ++ signedText offset
  | .ret consumeBits symbol => "RETURN " ++ toString consumeBits ++ ", " ++ hexByte symbol
  | .invalid0 consumeBits => "INVALID 00, " ++ toString consumeBits
  | .invalid3 consumeBits => "INVALID 11, " ++ toString consumeBits
  | .new _ => "NEW " ++ name
  | .decode dstCap src => "DECODE cap=" ++ toString dstCap ++ " src=" ++ bytesText src
  | .flush dstCap => "FLUSH cap=" ++ toString dstCap
  | .aligned => "ALIGNED"

/-- The lines of a Coding: header, then each node with one line a slot (30 R92). -/
def Coding.written (c : Coding) (name : String) : List String :=
  (".coding " ++ name ++ " treeShift=" ++ toString c.treeShift ++ " start=" ++ toString c.treeIndexStart ++
      " nodes=" ++ toString c.nodeCount) ::
    (List.range c.nodeCount).flatMap (fun i =>
      (".node " ++ toString i) ::
        (List.range c.slots).map (fun s =>
          binary c.treeShift s ++ ": " ++ (decodePtr (c.word i s)).written name))

/-- A bit of a response. -/
def bitText (b : Bool) : String := if b then "1" else "0"

/-- The written form of the response a machine gave to a command (30 R92). `NEW` is written without one. -/
def Machine.State.responseWritten (s : Machine.State) (i : Instr) : String :=
  match s.response, i with
  | some .fault, _ => "fault"
  | some (.ok _ nDst nSrc), .decode _ _ =>
    "dst=" ++ bytesText (s.dst.take nDst) ++ " nDst=" ++ toString nDst ++ " nSrc=" ++ toString nSrc
  | some (.ok flag nDst _), .flush _ =>
    "dst=" ++ bytesText (s.dst.take nDst) ++ " n=" ++ toString nDst ++ " finished=" ++ bitText flag
  | some (.ok flag _ _), .aligned => "aligned=" ++ bitText flag
  | _, _ => ""

end Sys2Proof
end

