-- ==== Sys2Proof/Safety.lean ====
section
/-! DEFINITION. What claims are stated in: well-formed Codings condition by condition (20 R56, R57), the invariant of
the machine, and the states in which an instruction runs. -/

namespace Sys2Proof

/-! ### The Coding -/

/-- The pointer at slot `s` of node `i`. -/
def Coding.pointer (c : Coding) (i s : Nat) : Instr := decodePtr (c.word i s)

/-- WF1 of 20 R56: "every pointer has `0 ≤ consumeBits ≤ treeShift`". -/
def Coding.WF1 (c : Coding) : Prop :=
  ∀ i s, i < c.nodeCount → s < c.slots → ptrConsumeBits (c.word i s) ≤ c.treeShift

/-- WF2 of 20 R56. -/
def Coding.WF2 (c : Coding) : Prop :=
  c.treeIndexStart < c.nodeCount ∧ 1 ≤ c.nodeCount ∧ 1 ≤ c.treeShift ∧ c.treeShift ≤ 25

/-- WF3 of 20 R56: every Descend pointer of node `i` leads to a node of the table. -/
def Coding.WF3 (c : Coding) : Prop :=
  ∀ i s consumeBits offset, i < c.nodeCount → s < c.slots → c.pointer i s = .descend consumeBits offset →
    0 ≤ (i : Int) + offset ∧ (i : Int) + offset < (c.nodeCount : Int)

/-- WF4 of 20 R56: every Descend pointer has `consumeBits ≥ 1`. -/
def Coding.WF4 (c : Coding) : Prop :=
  ∀ i s consumeBits offset, i < c.nodeCount → s < c.slots → c.pointer i s = .descend consumeBits offset →
    1 ≤ consumeBits

/-- WF5 of 20 R56: the bits of `target` above bit 7 are zero in every Return pointer. -/
def Coding.WF5 (c : Coding) : Prop :=
  ∀ i s consumeBits symbol, i < c.nodeCount → s < c.slots → c.pointer i s = .ret consumeBits symbol →
    ptrReserved (c.word i s) = 0

/-- P1 (replication) of 20 R57: in every node, two slots that agree in their top `c` bits, `c` the `consumeBits` of the
pointer at the first, hold equal pointers. -/
def Coding.Replicated (c : Coding) : Prop :=
  ∀ i s s', i < c.nodeCount → s < c.slots → s' < c.slots →
    s / 2 ^ (c.treeShift - ptrConsumeBits (c.word i s)) =
      s' / 2 ^ (c.treeShift - ptrConsumeBits (c.word i s)) →
    c.pointer i s = c.pointer i s'

/-- Every pointer of the table is a Descend or a Return: no slot can raise `CodingCorrupt`. (P3 of 20 R57 asks this of
the slots reachable from the root.) -/
def Coding.NoInvalidKind (c : Coding) : Prop :=
  ∀ i s, i < c.nodeCount → s < c.slots →
    ptrKind (c.word i s) = kindDescend ∨ ptrKind (c.word i s) = kindReturn

/-- The bits a path from node `i` to a Return of `symbol` consumes: P2 of 20 R57, "the consumed bits are that
codeword". -/
inductive Coding.Codeword (c : Coding) : Nat → List Bool → Byte → Prop where
  | ret (i s : Nat) (bits : List Bool) (symbol : Byte) (hi : i < c.nodeCount) (hs : s < c.slots)
      (hp : c.pointer i s = .ret bits.length symbol)
      (hb : s / 2 ^ (c.treeShift - bits.length) = bitsValue bits) : Codeword c i bits symbol
  | descend (i j s : Nat) (offset : Int) (bits rest : List Bool) (symbol : Byte) (hi : i < c.nodeCount)
      (hs : s < c.slots) (hp : c.pointer i s = .descend bits.length offset)
      (hb : s / 2 ^ (c.treeShift - bits.length) = bitsValue bits) (hj : (i : Int) + offset = (j : Int))
      (hr : Codeword c j rest symbol) : Codeword c i (bits ++ rest) symbol

/-! ### Byte streams -/

/-- Bytes as one big-endian number (40 R118). -/
def bytesValue (bs : List Byte) : Nat := bs.foldl (fun n b => 256 * n + b.toNat) 0

/-- The bits of a byte, most significant first (20 R61). -/
def byteBits (b : Byte) : List Bool := (List.range 8).map (fun k => b.getLsbD (7 - k))

/-- The bit string of a byte stream (20 R61, 40 R120). -/
def streamBits (bs : List Byte) : List Bool := bs.flatMap byteBits

namespace Machine

/-! ### The invariant -/

/-- The Coding in use has passed the check of 20 R56. -/
def State.CodingOk (s : State) : Prop := ∀ c, s.coding = some c → c.wf = true

/-- "`0 ≤ heldCount ≤ 32`" (10 R22, 40 R119), of a Decoder that is not faulted (60 R196). -/
def State.CountOk (s : State) : Prop := s.fault = false → s.heldCount ≤ 32

/-- "`0 ≤ treeIndex < NODE_COUNT`" (10 R25), of a constructed Decoder that is not faulted (60 R196). -/
def State.IndexOk (s : State) : Prop :=
  ∀ c, s.coding = some c → s.fault = false → 0 ≤ s.treeIndex ∧ s.treeIndex < (c.nodeCount : Int)

/-- "`FCAUSE` is 0 while `FAULT = 0`" and 1 while it is 1, on a constructed Decoder (10 R28, 60 R190). -/
def State.CauseOk (s : State) : Prop :=
  (s.fault = false → s.fcause.code = 0) ∧ (s.fault = true → s.fcause.code = 1 ∧ s.coding.isSome = true)

/-- A command in progress runs on a constructed Decoder that is not faulted, has written no more than its capacity and
ingested no more than its bytes, and has room for a byte where it stalled (20 R58, R59; 42 R163, R164). -/
def State.RunOk (s : State) : Prop :=
  ∀ r, s.run = some r →
    s.coding.isSome = true ∧ s.fault = false ∧ s.dst.length ≤ r.dstCap ∧ r.nSrc ≤ r.src.length ∧
      (r.phase = .needInput → s.heldCount ≤ 24 ∧ s.dst.length < r.dstCap) ∧
      (r.phase = .dstFull → s.dst.length = r.dstCap)

/-- The invariant of the machine: what holds at reset and every step keeps. -/
def State.Inv (s : State) : Prop := s.CodingOk ∧ s.CountOk ∧ s.IndexOk ∧ s.CauseOk ∧ s.RunOk

/-! ### Where an instruction runs -/

/-- An iteration of EXTRACT with room in `dst` is under way with the Coding `c` and the command `r`. -/
def State.ExtractingWith (s : State) (c : Coding) (r : Run) : Prop := s.extraction = some (c, r)

/-- Between commands, on a constructed Decoder that is not faulted. -/
def State.ReadyFor (s : State) (c : Coding) : Prop := s.run = none ∧ s.coding = some c ∧ s.fault = false

/-- `s`, inside a command, comes by single steps to `t`, the first state that is between commands. -/
def State.RunsTo (s t : State) : Prop :=
  ∃ n : Nat, Host.Core.run core n s = .next t ∧ t.run = none ∧
    ∀ m < n, ∃ u : State, Host.Core.run core m s = .next u ∧ u.run ≠ none

/-- The two machines differ in nothing but `heldBits`. -/
def State.SameBesidesHeldBits (s t : State) : Prop := t = { s with heldBits := t.heldBits }

/-- What a Decoder has been through since a `NEW` on `c`: the bytes it ingested over all its commands, the symbols it
wrote over all of them, and the state it is in now. The commands come in any order, cut as the host likes
(42 R160, R166); none of them faulted. -/
inductive History (c : Coding) : List Byte → List Byte → State → Prop where
  | new (s t : State) (h : exec (.new c) s = .next t) : History c [] [] t
  | decode (ingested written : List Byte) (s t : State) (dstCap : Nat) (src : List Byte) (nDst nSrc : Nat)
      (past : History c ingested written s) (h : exec (.decode dstCap src) s = .next t)
      (answer : t.response = some (.ok false nDst nSrc)) :
      History c (ingested ++ src.take nSrc) (written ++ t.dst) t
  | flush (ingested written : List Byte) (s t : State) (dstCap : Nat) (finished : Bool) (nDst nSrc : Nat)
      (past : History c ingested written s) (h : exec (.flush dstCap) s = .next t)
      (answer : t.response = some (.ok finished nDst nSrc)) :
      History c ingested (written ++ t.dst) t
  | aligned (ingested written : List Byte) (s t : State) (past : History c ingested written s)
      (h : exec .aligned s = .next t) : History c ingested written t

/-- A history whose last command is a DECODE or FLUSH that wrote fewer bytes than its capacity: "the Decoder can do
nothing more without input" (42 R164, R170). -/
inductive DrainedHistory (c : Coding) : List Byte → List Byte → State → Prop where
  | decode (ingested written : List Byte) (s t : State) (dstCap : Nat) (src : List Byte) (nDst nSrc : Nat)
      (past : History c ingested written s) (h : exec (.decode dstCap src) s = .next t)
      (answer : t.response = some (.ok false nDst nSrc)) (room : nDst < dstCap) :
      DrainedHistory c (ingested ++ src.take nSrc) (written ++ t.dst) t
  | flush (ingested written : List Byte) (s t : State) (dstCap : Nat) (finished : Bool) (nDst nSrc : Nat)
      (past : History c ingested written s) (h : exec (.flush dstCap) s = .next t)
      (answer : t.response = some (.ok finished nDst nSrc)) (room : nDst < dstCap) :
      DrainedHistory c ingested (written ++ t.dst) t

end Machine

end Sys2Proof
end

