-- ==== Sys2Proof/Certificates/Slice0/Obligations.lean ====
section
/-! DEFINITION. The statements for the provers, each from the numbered rules of spec/ that OBLIGATIONS.json cites. -/

open Sys2Proof Sys2Proof.Machine

/-! ### Encodings (30) -/

/-- R86: the decode function of format PTR by the tag, and the two identities, for every `TARGET_W` of at least 8.
`consumeBits` must fit its six bits. For an invalid kind the reserved bits are the whole of `target`, which has no
meaning there (log entry 9). -/
def Obligations.PointerEncodeDecodeAgree : Prop :=
  ∀ tw : Nat, 8 ≤ tw →
    (∀ w : BitVec (tw + 8),
      (w.extractLsb' 6 2 = 0b01#2 →
        decodePtr w = .descend (w.extractLsb' 0 6).toNat (w.extractLsb' 8 tw).toInt) ∧
      (w.extractLsb' 6 2 = 0b10#2 →
        decodePtr w = .ret (w.extractLsb' 0 6).toNat (w.extractLsb' 8 8)) ∧
      (w.extractLsb' 6 2 = 0b00#2 → decodePtr w = .invalid0 (w.extractLsb' 0 6).toNat) ∧
      (w.extractLsb' 6 2 = 0b11#2 → decodePtr w = .invalid3 (w.extractLsb' 0 6).toNat)) ∧
    (∀ i : Instr, i.isPointer = true → i.wellFormedAt tw = true → decodeAt (encodeAt tw i) = i) ∧
    (∀ w : BitVec (tw + 8),
      (w.extractLsb' 6 2 = 0b01#2 ∨
        (w.extractLsb' 6 2 = 0b10#2 ∧ ptrReserved w = 0) ∨
        ((w.extractLsb' 6 2 = 0b00#2 ∨ w.extractLsb' 6 2 = 0b11#2) ∧ ptrTarget w = 0#tw)) →
      encodeAt tw (decodePtr w) = .ptr w)

/-- The round trip for every instruction at every `TARGET_W`, commands with their operands included (30 R86, R87). -/
def Obligations.InstructionEncodeDecodeAgree : Prop :=
  ∀ (tw : Nat) (i : Instr), 8 ≤ tw → i.wellFormedAt tw = true → decodeAt (encodeAt tw i) = i

/-- R94: each row of the opcode table is decoded to its own instruction by its mask and match, and by nothing else; for
every `TARGET_W`, the table's own 24-bit words among them. -/
def Obligations.TableRowsByMaskAndMatch : Prop :=
  (∀ (tw : Nat) (w : PtrWord tw), 8 ≤ tw →
    (w &&& 0x0000C0#(tw + 8) = 0x000040#(tw + 8) ↔ ∃ n offset, decodePtr w = .descend n offset) ∧
    (w &&& 0x0000C0#(tw + 8) = 0x000080#(tw + 8) ↔ ∃ n symbol, decodePtr w = .ret n symbol) ∧
    (w &&& 0x0000C0#(tw + 8) = 0x000000#(tw + 8) ↔ ∃ n, decodePtr w = .invalid0 n) ∧
    (w &&& 0x0000C0#(tw + 8) = 0x0000C0#(tw + 8) ↔ ∃ n, decodePtr w = .invalid3 n)) ∧
  (∀ q : Request,
    (q.op &&& 0b11#2 = 0b00#2 ↔ decodeCmd q = .new q.coding) ∧
    (q.op &&& 0b11#2 = 0b01#2 ↔ decodeCmd q = .decode q.dstCap q.src) ∧
    (q.op &&& 0b11#2 = 0b10#2 ↔ decodeCmd q = .flush q.dstCap) ∧
    (q.op &&& 0b11#2 = 0b11#2 ↔ decodeCmd q = .aligned))

/-- Words the spec writes out (95 part 3.1), one at the least `TARGET_W`, and the four command codes (30 R87), read by
the decoder. A bare code has operands of zeros beside it: the model's choice, log entry 8. -/
def Obligations.WordsOfTheSpecDecode : Prop :=
  decodeTableWord 24 0xFFFF42 = some (.descend 2 (-1)) ∧ decodeTableWord 24 0x800044 = some (.descend 4 (-32768)) ∧
  decodeTableWord 24 0x01FF99 = some (.ret 25 0xFF#8) ∧ decodeTableWord 24 0x000002 = some (.invalid0 2) ∧
  decodeTableWord 24 0x0000C3 = some (.invalid3 3) ∧ decodeTableWord 16 0xFE42 = some (.descend 2 (-2)) ∧
  decodeTableWord 8 0 = some (.new Coding.blank) ∧ decodeTableWord 8 1 = some (.decode 0 []) ∧
  decodeTableWord 8 2 = some (.flush 0) ∧ decodeTableWord 8 3 = some .aligned ∧ decodeTableWord 15 0 = none

/-- R93: LEAF, LINK and VOID stand for one pointer in each of the `2^(treeShift - c)` slots whose selector begins with
the bits, and in no other slot. -/
def Obligations.PseudoInstructionsFillPrefixSlots : Prop :=
  ∀ (t : Nat) (bits : List Bool), bits.length ≤ t →
    (∀ s, s ∈ prefixSlots t bits ↔ s < 2 ^ t ∧ s / 2 ^ (t - bits.length) = bitsValue bits) ∧
    (prefixSlots t bits).length = 2 ^ (t - bits.length) ∧ (prefixSlots t bits).Nodup ∧
    (∀ symbol, (NodeLine.leaf bits symbol).expand t = (prefixSlots t bits).map (fun s => (s, .ret bits.length symbol))) ∧
    (∀ offset, (NodeLine.link bits offset).expand t =
      (prefixSlots t bits).map (fun s => (s, .descend bits.length offset))) ∧
    (NodeLine.void bits).expand t = (prefixSlots t bits).map (fun s => (s, .invalid0 bits.length))

/-! ### The bit accumulator (40) -/

/-- R111: REFILL, both registers, the cursor, and nothing else. -/
def Obligations.RefillShiftsOneByteIn : Prop :=
  ∀ (s : State) (r : Run) (b : Byte), s.run = some r →
    s.refill b = { s with
      heldBits := BitVec.ofNat 32 (s.heldBits.toNat * 256 + b.toNat)
      heldCount := s.heldCount + 8
      run := some { r with nSrc := r.nSrc + 1 } }

/-- R119: the bounds after `NEW` and through REFILL and CONSUME, and REFILL destroys no valid bit: the window after it
is the window before it followed by the eight bits of the byte. -/
def Obligations.AccumulatorDropsNoValidBit : Prop :=
  (∀ (s : State) (c : Coding), (s.construct c).heldCount = 0) ∧
  (∀ (s : State) (b : Byte), s.hasRoom = true →
    (s.refill b).heldCount = s.heldCount + 8 ∧ (s.refill b).heldCount ≤ 32 ∧ (s.refill b).window = s.window * 256 + b.toNat) ∧
  (∀ (s : State) (n : Nat), s.heldCount ≤ 32 → s.stalls n = false →
    (s.consume n).heldCount ≤ 32 ∧ (s.consume n).heldCount + n = s.heldCount ∧
      s.window % 2 ^ (s.heldCount - n) = (s.consume n).window)

/-- R115: REFILL_ALL ingests `min(len(src) - k, floor((32 - h) / 8))` bytes, each by REFILL. -/
def Obligations.RefillAllIngestsWhatFits : Prop :=
  ∀ (s : State) (bytes : List Byte), s.heldCount ≤ 32 →
    State.refillAll bytes s = (bytes.take ((32 - s.heldCount) / 8)).foldl State.refill s ∧
    (State.refillAll bytes s).heldCount = s.heldCount + 8 * min bytes.length ((32 - s.heldCount) / 8)

/-- R112: SELECT is the top `T` bits of the valid window, or all of it with zeros below; a `T`-bit value. -/
def Obligations.SelectorIsTopOfWindow : Prop :=
  ∀ (t : Nat) (heldBits : BitVec 32) (h : Nat), 1 ≤ t → t ≤ 25 → h ≤ 32 →
    (t ≤ h → selector t heldBits h = heldBits.toNat % 2 ^ h / 2 ^ (h - t)) ∧
    (h < t → selector t heldBits h = heldBits.toNat % 2 ^ h * 2 ^ (t - h)) ∧
    selector t heldBits h < 2 ^ t

/-- R117: "two accumulators with equal `heldCount` and equal valid windows give equal selectors". -/
def Obligations.SelectorIgnoresStaleBits : Prop :=
  ∀ (t : Nat) (heldBits heldBits' : BitVec 32) (h : Nat), t ≤ 25 → h ≤ 32 →
    heldBits.toNat % 2 ^ h = heldBits'.toNat % 2 ^ h → selector t heldBits h = selector t heldBits' h

/-- R139: why a speculative lookup is safe, for a Coding with the replication property: if the pointer found with `h` bits
held asks for no more than those, the pointer found with more bits held after the same `h` is equal to it. -/
def Obligations.SpeculativeLookupIsSafe : Prop :=
  ∀ (c : Coding) (node h h' : Nat) (heldBits heldBits' : BitVec 32), c.wf = true → c.Replicated →
    node < c.nodeCount → h ≤ h' → h' ≤ 32 →
    heldBits'.toNat % 2 ^ h' / 2 ^ (h' - h) = heldBits.toNat % 2 ^ h →
    ptrConsumeBits (c.word node (selector c.treeShift heldBits h)) ≤ h →
    c.pointer node (selector c.treeShift heldBits' h') = c.pointer node (selector c.treeShift heldBits h)

/-! ### Pointer words (41) -/

/-- R113: a pointer that asks for more bits than are held stops EXTRACT with NeedInput, whatever its kind, and leaves
the registers, `dst` and all else as they are. -/
def Obligations.StalledPointerChangesNothing : Prop :=
  ∀ (s : State) (c : Coding) (r : Run) (n : Nat) (offset : Int) (symbol : Byte),
    s.ExtractingWith c r → s.heldCount < n →
    exec (.descend n offset) s = .next { s with run := some { r with phase := .needInput } } ∧
    exec (.ret n symbol) s = .next { s with run := some { r with phase := .needInput } } ∧
    exec (.invalid0 n) s = .next { s with run := some { r with phase := .needInput } } ∧
    exec (.invalid3 n) s = .next { s with run := some { r with phase := .needInput } }

/-- R132 with R114: a DESCEND that passes STALLCHK gives up its bits and moves `treeIndex` by its offset; nothing else
changes. -/
def Obligations.DescendMovesByOffset : Prop :=
  ∀ (s : State) (c : Coding) (r : Run) (n : Nat) (offset : Int),
    s.ExtractingWith c r → n ≤ s.heldCount →
    exec (.descend n offset) s =
      .next { s with heldCount := s.heldCount - n, treeIndex := s.treeIndex + offset }

/-- R133 with R114: a RETURN that passes STALLCHK gives up its bits, writes its symbol as the next byte of `dst` and
goes back to the root; nothing else changes. -/
def Obligations.ReturnWritesSymbolAndGoesToRoot : Prop :=
  ∀ (s : State) (c : Coding) (r : Run) (n : Nat) (symbol : Byte),
    s.ExtractingWith c r → n ≤ s.heldCount →
    exec (.ret n symbol) s =
      .next { s with heldCount := s.heldCount - n, dst := s.dst ++ [symbol], treeIndex := (c.treeIndexStart : Int) }

/-- R134, R190, R191: an invalid kind that passes STALLCHK raises CodingCorrupt: FAULT and FCAUSE are set, the command
ends with `fault = 1`, no byte is written, the information of the lookup is carried (in the model's own field, log
entry 4). `heldBits`, `heldCount` and
`treeIndex` are left open (R196): the statement says nothing of them. -/
def Obligations.InvalidKindRaisesCodingCorrupt : Prop :=
  ∀ (s : State) (c : Coding) (r : Run) (n : Nat),
    s.ExtractingWith c r → n ≤ s.heldCount →
    (∃ t, exec (.invalid0 n) s = .next t ∧ t.fault = true ∧ t.fcause.code = 1 ∧ t.run = none ∧
      t.response = some .fault ∧ t.dst = s.dst ∧ t.coding = s.coding ∧ t.requests = s.requests ∧
      t.corruptInfo = some { treeIndex := s.treeIndex, sel := s.select c, kind := 0b00#2 }) ∧
    (∃ t, exec (.invalid3 n) s = .next t ∧ t.fault = true ∧ t.fcause.code = 1 ∧ t.run = none ∧
      t.response = some .fault ∧ t.dst = s.dst ∧ t.coding = s.coding ∧ t.requests = s.requests ∧
      t.corruptInfo = some { treeIndex := s.treeIndex, sel := s.select c, kind := 0b11#2 })

/-- A pointer word outside an iteration of EXTRACT is refused. The model's own choice, log entry 10. -/
def Obligations.PointerOutsideExtractRefused : Prop :=
  ∀ (s : State) (i : Instr), i.isPointer = true → s.extraction = none → exec i s = .refused .noExtraction

/-- The frame of the four pointer words, stalled or taken: the table, the host's requests and the bytes already in
`dst` are never written; without a fault `heldBits`, the response, FCAUSE and the command's operands and cursor stay;
only RETURN writes a byte, and one; only DESCEND and RETURN move `treeIndex` (10 R36). -/
def Obligations.PointerWordsFrame : Prop :=
  ∀ (s t : State) (i : Instr), i.isPointer = true → exec i s = .next t →
    t.coding = s.coding ∧ t.requests = s.requests ∧ s.dst <+: t.dst ∧ t.dst.length ≤ s.dst.length + 1 ∧
    ((∀ n symbol, i ≠ .ret n symbol) → t.dst = s.dst) ∧
    (t.fault = false →
      t.heldBits = s.heldBits ∧ t.heldCount ≤ s.heldCount ∧ t.response = s.response ∧ t.fcause = s.fcause ∧
      t.corruptInfo = s.corruptInfo ∧ t.freeCount = s.freeCount ∧
      (t.run.map (fun r => (r.kind, r.dstCap, r.src, r.nSrc)) = s.run.map (fun r => (r.kind, r.dstCap, r.src, r.nSrc))) ∧
      (((∀ n offset, i ≠ .descend n offset) ∧ (∀ n symbol, i ≠ .ret n symbol)) → t.treeIndex = s.treeIndex))

/-! ### EXTRACT (41, 60) -/

/-- R195: DstFull before NeedInput before CodingCorrupt. A full `dst` ends the loop before any lookup, whatever the
table holds; an invalid kind that asks for more bits than are held stalls; a fault is raised only for a pointer whose
bits are covered; a command whose `dst` is full responds without refilling. -/
def Obligations.StopsInTheOrderOfPriority : Prop :=
  (∀ (s : State) (r : Run), s.run = some r → r.phase = .extract → r.dstCap ≤ s.dst.length →
    step s = .next { s with run := some { r with phase := .dstFull } }) ∧
  (∀ (s t : State) (n : Nat), s.fault = false →
    (exec (.invalid0 n) s = .next t ∨ exec (.invalid3 n) s = .next t) →
    (t.fault = true ↔ n ≤ s.heldCount)) ∧
  (∀ (s : State) (r : Run), s.run = some r → r.phase = .dstFull →
    ∃ response, step s = .next { s with run := none, response := some response })

/-- R138: for a Coding that passes the check, a run of EXTRACT makes at most `cap + h + 1` iterations. -/
def Obligations.ExtractEndsWithinItsBound : Prop :=
  ∀ (s : State) (r : Run), s.Inv → s.run = some r → r.phase = .extract →
    ∃ (n : Nat) (t : State),
      n ≤ (r.dstCap - s.dst.length) + s.heldCount + 1 ∧ Host.Core.run core n s = .next t ∧
      (∀ r', t.run = some r' → r'.phase ≠ .extract)

/-- R163 with R115: when DECODE reaches REFILL_ALL it ingests, greedily, `min(len(src) - k, floor((32 - h) / 8))` bytes
and at least one, by REFILL of each in order, and extracts again; nothing else changes. -/
def Obligations.RefillPhaseIngestsAByte : Prop :=
  ∀ (s : State) (r : Run), s.Inv → s.run = some r → r.kind = .decode → r.phase = .needInput → r.nSrc < r.src.length →
    1 ≤ min (r.src.length - r.nSrc) ((32 - s.heldCount) / 8) ∧
    ∃ heldBits : BitVec 32,
      heldBits = (((r.src.drop r.nSrc).take ((32 - s.heldCount) / 8)).foldl State.refill s).heldBits ∧
      step s = .next { s with
        heldBits := heldBits
        heldCount := s.heldCount + 8 * min (r.src.length - r.nSrc) ((32 - s.heldCount) / 8)
        run := some { r with
          nSrc := r.nSrc + min (r.src.length - r.nSrc) ((32 - s.heldCount) / 8), phase := .extract } }

/-! ### Commands (42) -/

/-- R161, R34: `NEW` on a Coding that passes the check. That it also empties `corruptInfo` is the model's choice, log
entry 4, and that `dst` stays, log entry 6. -/
def Obligations.NewConstructsTheDecoder : Prop :=
  ∀ (s : State) (c : Coding), s.run = none → c.wf = true →
    exec (.new c) s = .next { s with
      coding := some c
      treeIndex := (c.treeIndexStart : Int)
      heldCount := 0
      heldBits := 0x00000000#32
      fault := false
      fcause := .noFault
      corruptInfo := none
      response := some (.ok false 0 0) }

/-- R56: the check the model makes is WF1 to WF5, and `NEW` refuses exactly the Codings that fail it. -/
def Obligations.NewRefusesIllFormedCodings : Prop :=
  ∀ c : Coding, c.canonical = true →
    (c.wf = true ↔ c.WF1 ∧ c.WF2 ∧ c.WF3 ∧ c.WF4 ∧ c.WF5) ∧
    (∀ s : State, s.run = none → (exec (.new c) s = .refused .codingNotWellFormed ↔ c.wf = false))

/-- R164: what the counts of a DECODE tell, with R162: it completes, or faults, and then says so. -/
def Obligations.DecodeCompletesWithItsCounts : Prop :=
  ∀ (s : State) (c : Coding) (dstCap : Nat) (src : List Byte), s.Inv → s.ReadyFor c →
    ∃ t, exec (.decode dstCap src) s = .next t ∧ t.run = none ∧ t.coding = some c ∧ t.requests = s.requests ∧
      ((t.fault = true ∧ t.response = some .fault) ∨
        (t.fault = false ∧ ∃ nSrc, t.response = some (.ok false t.dst.length nSrc) ∧ t.dst.length ≤ dstCap ∧
          nSrc ≤ src.length ∧ (t.dst.length = dstCap ∨ nSrc = src.length) ∧
          (t.dst.length < dstCap → nSrc = src.length ∧
            ∀ dstCap', exec (.decode dstCap' []) t =
              .next { t with dst := [], response := some (.ok false 0 0) }) ∧
          (nSrc < src.length → t.dst.length = dstCap)))

/-- R162, R170: on a Coding with no invalid kind DECODE and FLUSH complete with their own effect and never fault. -/
def Obligations.ExtractingCommandsCompleteUnfaulted : Prop :=
  ∀ (s : State) (c : Coding) (dstCap : Nat) (src : List Byte), s.Inv → s.ReadyFor c → c.NoInvalidKind →
    (∃ t nSrc, exec (.decode dstCap src) s = .next t ∧ t.run = none ∧ t.fault = false ∧
      t.response = some (.ok false t.dst.length nSrc) ∧ (t.dst.length = dstCap ∨ nSrc = src.length)) ∧
    (∃ t, exec (.flush dstCap) s = .next t ∧ t.run = none ∧ t.fault = false ∧ t.heldBits = s.heldBits ∧
      t.response = some (.ok (s.heldBits == 0#32) t.dst.length 0))

/-- R165 (a), (c): with no capacity nothing is looked up, ingested or written. -/
def Obligations.DecodeWithoutCapacityDoesNothing : Prop :=
  ∀ (s : State) (c : Coding) (src : List Byte), s.ReadyFor c →
    exec (.decode 0 src) s = .next { s with dst := [], response := some (.ok false 0 0) }

/-- R165 (b), R238: a DECODE with empty `src` has the effect of a FLUSH of the same capacity, in every state, but for
the flag of the response. Where they fault, the registers that R196 leaves unspecified are not compared. -/
def Obligations.DecodeOfNothingIsFlush : Prop :=
  ∀ (s t : State) (dstCap : Nat),
    (exec (.decode dstCap []) s = .next t → t.fault = false → exec (.flush dstCap) s =
      .next { t with response := some (.ok (t.heldBits == 0#32) t.dst.length 0) }) ∧
    (exec (.flush dstCap) s = .next t → t.fault = false → exec (.decode dstCap []) s =
      .next { t with response := some (.ok false t.dst.length 0) }) ∧
    (exec (.decode dstCap []) s = .next t → t.fault = true →
      ∃ u, exec (.flush dstCap) s = .next u ∧ u.fault = true ∧ u.dst = t.dst ∧ u.response = t.response) ∧
    (exec (.flush dstCap) s = .next t → t.fault = true →
      ∃ u, exec (.decode dstCap []) s = .next u ∧ u.fault = true ∧ u.dst = t.dst ∧ u.response = t.response)

/-- R170: FLUSH completes; it ingests nothing, never writes `heldBits`, and reports `finished` by the whole word. -/
def Obligations.FlushCompletesWithFinished : Prop :=
  ∀ (s : State) (c : Coding) (dstCap : Nat), s.Inv → s.ReadyFor c →
    ∃ t, exec (.flush dstCap) s = .next t ∧ t.run = none ∧ t.coding = some c ∧ t.requests = s.requests ∧
      ((t.fault = true ∧ t.response = some .fault) ∨
        (t.fault = false ∧ t.heldBits = s.heldBits ∧ t.heldCount ≤ s.heldCount ∧ t.dst.length ≤ dstCap ∧
          t.response = some (.ok (s.heldBits == 0#32) t.dst.length 0)))

/-- R170: "a second `FLUSH` right after one that stopped NeedInput writes nothing", and changes no register. -/
def Obligations.SecondFlushWritesNothing : Prop :=
  ∀ (s t : State) (dstCap dstCap' : Nat), exec (.flush dstCap) s = .next t → t.fault = false →
    t.dst.length < dstCap →
    exec (.flush dstCap') t = .next { t with dst := [], response := some (.ok (t.heldBits == 0#32) 0 0) }

/-- R160, R162, R170: DECODE and FLUSH are their steps. On a constructed, unfaulted Decoder the command answers exactly
the first state between commands that single steps come to from its beginning: nothing written, nothing ingested,
EXTRACT first. -/
def Obligations.CommandsAreTheirSteps : Prop :=
  ∀ (s : State) (c : Coding) (dstCap : Nat) (src : List Byte), s.Inv → s.ReadyFor c →
    (∃ t, exec (.decode dstCap src) s = .next t) ∧ (∃ t, exec (.flush dstCap) s = .next t) ∧
    (∀ t, exec (.decode dstCap src) s = .next t ↔
      State.RunsTo { s with
        dst := [], run := some { kind := .decode, dstCap := dstCap, src := src, nSrc := 0, phase := .extract } } t) ∧
    (∀ t, exec (.flush dstCap) s = .next t ↔
      State.RunsTo { s with
        dst := [], run := some { kind := .flush, dstCap := dstCap, src := [], nSrc := 0, phase := .extract } } t)

/-- R175: ALIGNED is 1 exactly when all 32 bits of `heldBits` are zero, and writes no state; on a faulted Decoder it
answers `fault = 1`. -/
def Obligations.AlignedTestsTheWholeWord : Prop :=
  (∀ (s : State) (c : Coding), s.ReadyFor c →
    (s.heldBits = 0#32 → exec .aligned s = .next { s with response := some (.ok true 0 0) }) ∧
    (s.heldBits ≠ 0#32 → exec .aligned s = .next { s with response := some (.ok false 0 0) })) ∧
  (∀ (s : State) (c : Coding), s.run = none → s.coding = some c → s.fault = true →
    exec .aligned s = .next { s with response := some .fault })

/-- R177: on a faulted Decoder the three commands change nothing and answer `fault = 1`; `NEW` works and clears the
fault; on a Decoder that never had a `NEW` the three are refused. -/
def Obligations.FaultedAndUnconstructedDecoders : Prop :=
  (∀ (s : State) (c : Coding) (i : Instr), (i = .aligned ∨ (∃ n, i = .flush n) ∨ ∃ n src, i = .decode n src) →
    s.run = none → s.coding = some c → s.fault = true → exec i s = .next { s with response := some .fault }) ∧
  (∀ (s : State) (c : Coding), s.run = none → c.wf = true →
    ∃ t, exec (.new c) s = .next t ∧ t.fault = false ∧ t.fcause.code = 0) ∧
  (∀ (s : State) (i : Instr), (i = .aligned ∨ (∃ n, i = .flush n) ∨ ∃ n src, i = .decode n src) →
    s.run = none → s.coding = none → exec i s = .refused .unconstructed)

/-- R66: two commands at once on one Decoder are refused. -/
def Obligations.OverlappingCommandsRefused : Prop :=
  ∀ (s : State) (r : Run) (i : Instr), i.isPointer = false → s.run = some r → exec i s = .refused .overlappingCommand

/-- R221: after a reset ALIGNED gives 1, and FLUSH does what the pointer at slot 0 of the root says. -/
def Obligations.RightAfterNew : Prop :=
  ∀ (s t : State) (c : Coding), exec (.new c) s = .next t →
    exec .aligned t = .next { t with response := some (.ok true 0 0) } ∧
    (∀ dstCap, (dstCap = 0 ∨ 0 < ptrConsumeBits (c.word c.treeIndexStart 0)) →
      exec (.flush dstCap) t = .next { t with dst := [], response := some (.ok true 0 0) }) ∧
    (∀ dstCap symbol, c.pointer c.treeIndexStart 0 = .ret 0 symbol →
      exec (.flush dstCap) t =
        .next { t with dst := List.replicate dstCap symbol, response := some (.ok true dstCap 0) }) ∧
    (∀ dstCap, 0 < dstCap →
      (c.pointer c.treeIndexStart 0 = .invalid0 0 ∨ c.pointer c.treeIndexStart 0 = .invalid3 0) →
      ∃ u, exec (.flush dstCap) t = .next u ∧ u.fault = true ∧ u.response = some .fault ∧ u.dst = [])

/-- The frame of DECODE, FLUSH and ALIGNED: the Coding, so every word of the table, and the host's requests are never
written; without a fault FAULT, FCAUSE and the model's own fields stay; FLUSH and ALIGNED leave `heldBits`; ALIGNED
leaves all but the response (10 R36). -/
def Obligations.CommandsFrame : Prop :=
  ∀ (s t : State) (i : Instr), (i = .aligned ∨ (∃ n, i = .flush n) ∨ ∃ n src, i = .decode n src) →
    exec i s = .next t →
    t.coding = s.coding ∧ t.requests = s.requests ∧
    (∀ c c' node slot, s.coding = some c → t.coding = some c' →
      (c'.tblRead node slot).map (fun w => w.toNat) = (c.tblRead node slot).map (fun w => w.toNat)) ∧
    (t.fault = false → s.fault = false ∧ t.fcause = s.fcause ∧ t.corruptInfo = s.corruptInfo ∧
      t.freeCount = s.freeCount ∧ (i = .aligned ∨ (∃ n, i = .flush n) → t.heldBits = s.heldBits)) ∧
    (i = .aligned → t = { s with response := t.response })

/-! ### Whole-machine rules -/

/-- R52, R68: no instruction but `NEW` changes what a lookup finds; a read has no side effect and is repeatable. -/
def Obligations.TableIsNeverWritten : Prop :=
  ∀ (s t : State) (i : Instr), (∀ c, i ≠ .new c) → exec i s = .next t → t.coding = s.coding

/-- R28: FAULT is 0 after `NEW`; it is set, with FCAUSE 1, by the invalid-kind step and by nothing else; only `NEW`
clears it; while it is 1 every command but `NEW` changes no state and answers `fault = 1`; FCAUSE stays 0 while FAULT
is 0. -/
def Obligations.FaultFlagIsSticky : Prop :=
  (∀ (s t : State) (c : Coding), exec (.new c) s = .next t → t.fault = false ∧ t.fcause.code = 0) ∧
  (∀ (s t : State), microStep s = .next t → s.fault = false → t.fault = true →
    t.fcause.code = 1 ∧ ∃ c, ∃ w : PtrWord c.targetW, s.coding = some c ∧
      c.tblRead s.treeIndex (selector c.treeShift s.heldBits s.heldCount) = some w ∧
      (w.extractLsb' 6 2 = 0b00#2 ∨ w.extractLsb' 6 2 = 0b11#2) ∧ (w.extractLsb' 0 6).toNat ≤ s.heldCount) ∧
  (∀ (s t : State) (i : Instr), (∀ c, i ≠ .new c) → exec i s = .next t → s.fault = true →
    t = { s with response := some .fault }) ∧
  (∀ (s t : State) (i : Instr), exec i s = .next t → s.fcause.code = 0 → t.fault = false → t.fcause.code = 0)

/-- R160: commands are atomic: from a state between commands a step leads to a state between commands. -/
def Obligations.CommandsAreAtomic : Prop :=
  ∀ s t : State, s.run = none → step s = .next t → t.run = none

/-- A step inside EXTRACT with room in `dst` runs the pointer word that the table holds at `(treeIndex, sel)`, exactly
as `exec` runs it (41 R131, R135). -/
def Obligations.StepRunsTheWordLookedUp : Prop :=
  ∀ (s : State) (c : Coding) (r : Run) (w : PtrWord c.targetW),
    s.ExtractingWith c r → c.tblRead s.treeIndex (selector c.treeShift s.heldBits s.heldCount) = some w →
    step s = exec (decodePtr w) s

/-- A step between commands runs the host's next command, exactly as `exec` runs it, with the rest still to come
(42 R160); with none to come the Decoder holds its state (60 R205). -/
def Obligations.StepRunsTheNextCommand : Prop :=
  (∀ (s : State) (q : Request) (rest : List Request), s.run = none → s.requests = q :: rest →
    step s = exec (decodeCmd q) { s with requests := rest }) ∧
  (∀ s : State, s.run = none → s.requests = [] → step s = .next s)

/-- A lookup outside the table is refused, never wrapped and never a fault. The spec refuses a Coding that can lead there
before it runs (10 R25, 93 U4), as `NEW` does; the refusal at the lookup is the model's choice, log entry 11. -/
def Obligations.LookupOutsideTableRefused : Prop :=
  ∀ (s : State) (c : Coding) (r : Run), s.ExtractingWith c r →
    (s.treeIndex < 0 ∨ (c.nodeCount : Int) ≤ s.treeIndex) → step s = .refused .lookupOutsideTable

/-- Every step keeps the invariant: the Coding passes the check, `heldCount ≤ 32` and `treeIndex` lies in the table
while there is no fault, FCAUSE follows FAULT, a command in progress keeps within its operands (10 R22, R25, R28;
40 R119). -/
def Obligations.StepKeepsTheInvariant : Prop :=
  ∀ s t : State, s.Inv → step s = .next t → t.Inv

/-- The invariant holds at State.reset, whose register values are the model's choice (log entry 1), and after `NEW` whatever the state was. -/
def Obligations.ResetMeetsTheInvariant : Prop :=
  State.reset.Inv ∧ ∀ (s t : State) (c : Coding), exec (.new c) s = .next t → t.Inv

/-- A machine that meets the invariant is never refused for a lookup outside the table, for a pointer outside an
extraction or for work without end: those refusals need a Coding that fails the check (10 R25, 41 R138, 42 R163). -/
def Obligations.WellFormedMachineIsNeverStuck : Prop :=
  ∀ s : State, s.Inv →
    (∃ t, step s = .next t) ∨
    (∃ q rest, s.run = none ∧ s.requests = q :: rest ∧
      ((∃ c, decodeCmd q = .new c ∧ c.wf = false ∧ step s = .refused .codingNotWellFormed) ∨
        ((∀ c, decodeCmd q ≠ .new c) ∧ s.coding = none ∧ step s = .refused .unconstructed)))

/-! ### What a stream of commands gives (40 R118, R120; 42 R166, R176) -/

/-- R118: over any commands since `NEW`, `heldBits` is the big-endian number of all ingested bytes, modulo `2^32`. -/
def Obligations.HeldBitsAreTheLastFourBytes : Prop :=
  ∀ (c : Coding) (ingested written : List Byte) (s : State), History c ingested written s →
    s.heldBits.toNat = bytesValue ingested % 2 ^ 32 ∧
    (s.heldBits = 0#32 ↔ ∀ b ∈ ingested.drop (ingested.length - 4), b = 0#8)

/-- R176: `aligned` and `finished` are 1 exactly when the last `min(k, 4)` ingested bytes are all zero. -/
def Obligations.AlignedIffLastFourBytesZero : Prop :=
  ∀ (c : Coding) (ingested written : List Byte) (s t : State) (flag : Bool) (n : Nat), History c ingested written s →
    ((exec .aligned s = .next t ∧ t.response = some (.ok flag n 0)) ∨
      (∃ dstCap, exec (.flush dstCap) s = .next t ∧ t.response = some (.ok flag n 0))) →
    (flag = true ↔ ∀ b ∈ ingested.drop (ingested.length - min ingested.length 4), b = 0#8)

/-- R120: the valid window is a suffix of the bit string ingested since `NEW`. -/
def Obligations.WindowIsASuffixOfTheInput : Prop :=
  ∀ (c : Coding) (ingested written : List Byte) (s : State), History c ingested written s →
    s.heldCount ≤ 8 * ingested.length ∧ s.heldCount ≤ 32 ∧ s.window = bytesValue ingested % 2 ^ s.heldCount

/-- R166 (b), (c): a DECODE split into two by its capacity, with the cursors advanced, writes the same bytes, ingests
as many and leaves the same registers as the one DECODE, for any split point and any Coding. -/
def Obligations.DecodeSplitByCapacity : Prop :=
  ∀ (s t u : State) (dstCap k nDst nSrc : Nat) (src : List Byte), s.Inv → k ≤ dstCap →
    exec (.decode k src) s = .next t → t.response = some (.ok false nDst nSrc) →
    exec (.decode (dstCap - nDst) (src.drop nSrc)) t = .next u →
    (u.fault = true → ∃ v, exec (.decode dstCap src) s = .next v ∧ v.fault = true ∧ v.dst = t.dst ++ u.dst) ∧
    (∀ mSrc, u.response = some (.ok false u.dst.length mSrc) →
      exec (.decode dstCap src) s = .next { u with
        dst := t.dst ++ u.dst, response := some (.ok false (t.dst.length + u.dst.length) (nSrc + mSrc)) })

/-- R166 (a), (b): for a Coding with the replication property, what a Decoder writes does not depend on how the input
is cut into commands, on the capacities, or on what it has been given so far: of two histories on one stream the
shorter output is a prefix of the longer, and one that stopped for want of input has written all that any history on
no more input has. So two that have ingested the same bytes and stopped so have written the same. -/
def Obligations.OutputDoesNotDependOnChunking : Prop :=
  ∀ (c : Coding) (ingested ingested' written written' : List Byte) (s s' : State), c.Replicated →
    (History c ingested written s → History c ingested' written' s' → ingested <+: ingested' →
      written <+: written' ∨ written' <+: written) ∧
    (History c ingested written s → DrainedHistory c ingested' written' s' → ingested <+: ingested' →
      written <+: written') ∧
    (DrainedHistory c ingested written s → DrainedHistory c ingested written' s' → written = written')

/-- R166 (a): the round trip. For a Coding with the replication property and a stream that begins with the codewords of
some symbols, every history on it writes those symbols, in order, before anything else; one that ingested all of it and
stopped for want of input has written them all; and whatever the chunk and the capacity, as long as the capacities do not
ask for more symbols than there are, the next DECODE or FLUSH does not fault and goes on with those symbols. -/
def Obligations.CodewordsDecodeToTheirSymbols : Prop :=
  ∀ (c : Coding) (code : List (List Bool × Byte)) (padding : List Bool) (stream ingested written : List Byte)
    (s : State), c.Replicated → (∀ p ∈ code, c.Codeword c.treeIndexStart p.1 p.2) →
    streamBits stream = code.flatMap Prod.fst ++ padding →
    (ingested <+: stream → History c ingested written s →
      written <+: code.map Prod.snd ∨ code.map Prod.snd <+: written) ∧
    (DrainedHistory c stream written s → code.map Prod.snd <+: written) ∧
    (∀ (dstCap : Nat) (src : List Byte), History c ingested written s → ingested ++ src <+: stream →
      written.length + dstCap ≤ code.length →
      (∃ t nSrc, exec (.decode dstCap src) s = .next t ∧ t.fault = false ∧
        t.response = some (.ok false t.dst.length nSrc) ∧ written ++ t.dst <+: code.map Prod.snd) ∧
      (∃ t finished, exec (.flush dstCap) s = .next t ∧ t.fault = false ∧
        t.response = some (.ok finished t.dst.length 0) ∧ written ++ t.dst <+: code.map Prod.snd))

/-- R166 (a), with R162: a fresh Decoder given the whole stream, with room for exactly the symbols, answers them. -/
def Obligations.OneDecodeGivesTheMessage : Prop :=
  ∀ (c : Coding) (code : List (List Bool × Byte)) (padding : List Bool) (stream : List Byte) (s t : State),
    c.Replicated → (∀ p ∈ code, c.Codeword c.treeIndexStart p.1 p.2) →
    streamBits stream = code.flatMap Prod.fst ++ padding → exec (.new c) s = .next t →
    ∃ u nSrc, exec (.decode code.length stream) t = .next u ∧ u.fault = false ∧ u.dst = code.map Prod.snd ∧
      u.response = some (.ok false code.length nSrc)

/-- R31, R117: stale bits take no part in decoding. Two machines that differ only in bits of `heldBits` outside the
valid window write the same bytes and give the same response to a DECODE, and differ only in `heldBits` after it; the
same of a FLUSH, but for `finished`, which tests the whole word. Where they fault, the registers that R196 leaves
unspecified are not compared. -/
def Obligations.StaleBitsNeverReachTheOutput : Prop :=
  ∀ (s s' t : State) (dstCap : Nat) (src : List Byte), s.Inv → s.SameBesidesHeldBits s' → s.window = s'.window →
    (exec (.decode dstCap src) s = .next t →
      ∃ t', exec (.decode dstCap src) s' = .next t' ∧ t'.fault = t.fault ∧ t'.dst = t.dst ∧
        t'.response = t.response ∧ (t.fault = false → t.SameBesidesHeldBits t')) ∧
    (exec (.flush dstCap) s = .next t →
      ∃ t', exec (.flush dstCap) s' = .next t' ∧ t'.fault = t.fault ∧ t'.dst = t.dst ∧
        (t.fault = true → t'.response = t.response) ∧
        (t.fault = false → t'.response = some (.ok (t'.heldBits == 0#32) t.dst.length 0) ∧
          t' = { t with heldBits := t'.heldBits, response := t'.response }))
end

