-- ==== Sys2Proof/Laws/State.lean ====
section
/-! SUPPORT. What each operation on the state leaves in each field, so that no proof unfolds a record update. -/

namespace Sys2Proof.Machine

variable (s : State)

/-! ### consume -/

@[simp] theorem State.consume_coding (n : Nat) : (s.consume n).coding = s.coding := rfl
@[simp] theorem State.consume_treeIndex (n : Nat) : (s.consume n).treeIndex = s.treeIndex := rfl
@[simp] theorem State.consume_heldBits (n : Nat) : (s.consume n).heldBits = s.heldBits := rfl
@[simp] theorem State.consume_heldCount (n : Nat) : (s.consume n).heldCount = s.heldCount - n := rfl
@[simp] theorem State.consume_fault (n : Nat) : (s.consume n).fault = s.fault := rfl
@[simp] theorem State.consume_fcause (n : Nat) : (s.consume n).fcause = s.fcause := rfl
@[simp] theorem State.consume_run (n : Nat) : (s.consume n).run = s.run := rfl
@[simp] theorem State.consume_dst (n : Nat) : (s.consume n).dst = s.dst := rfl
@[simp] theorem State.consume_response (n : Nat) : (s.consume n).response = s.response := rfl
@[simp] theorem State.consume_requests (n : Nat) : (s.consume n).requests = s.requests := rfl
@[simp] theorem State.consume_corruptInfo (n : Nat) : (s.consume n).corruptInfo = s.corruptInfo := rfl
@[simp] theorem State.consume_freeCount (n : Nat) : (s.consume n).freeCount = s.freeCount := rfl

/-! ### moveTo -/

@[simp] theorem State.moveTo_coding (t : Int) : (s.moveTo t).coding = s.coding := rfl
@[simp] theorem State.moveTo_treeIndex (t : Int) : (s.moveTo t).treeIndex = t := rfl
@[simp] theorem State.moveTo_heldBits (t : Int) : (s.moveTo t).heldBits = s.heldBits := rfl
@[simp] theorem State.moveTo_heldCount (t : Int) : (s.moveTo t).heldCount = s.heldCount := rfl
@[simp] theorem State.moveTo_fault (t : Int) : (s.moveTo t).fault = s.fault := rfl
@[simp] theorem State.moveTo_fcause (t : Int) : (s.moveTo t).fcause = s.fcause := rfl
@[simp] theorem State.moveTo_run (t : Int) : (s.moveTo t).run = s.run := rfl
@[simp] theorem State.moveTo_dst (t : Int) : (s.moveTo t).dst = s.dst := rfl
@[simp] theorem State.moveTo_response (t : Int) : (s.moveTo t).response = s.response := rfl
@[simp] theorem State.moveTo_requests (t : Int) : (s.moveTo t).requests = s.requests := rfl
@[simp] theorem State.moveTo_corruptInfo (t : Int) : (s.moveTo t).corruptInfo = s.corruptInfo := rfl
@[simp] theorem State.moveTo_freeCount (t : Int) : (s.moveTo t).freeCount = s.freeCount := rfl

/-! ### emit -/

@[simp] theorem State.emit_coding (v : Byte) : (s.emit v).coding = s.coding := rfl
@[simp] theorem State.emit_treeIndex (v : Byte) : (s.emit v).treeIndex = s.treeIndex := rfl
@[simp] theorem State.emit_heldBits (v : Byte) : (s.emit v).heldBits = s.heldBits := rfl
@[simp] theorem State.emit_heldCount (v : Byte) : (s.emit v).heldCount = s.heldCount := rfl
@[simp] theorem State.emit_fault (v : Byte) : (s.emit v).fault = s.fault := rfl
@[simp] theorem State.emit_fcause (v : Byte) : (s.emit v).fcause = s.fcause := rfl
@[simp] theorem State.emit_run (v : Byte) : (s.emit v).run = s.run := rfl
@[simp] theorem State.emit_dst (v : Byte) : (s.emit v).dst = s.dst ++ [v] := rfl
@[simp] theorem State.emit_response (v : Byte) : (s.emit v).response = s.response := rfl
@[simp] theorem State.emit_requests (v : Byte) : (s.emit v).requests = s.requests := rfl
@[simp] theorem State.emit_corruptInfo (v : Byte) : (s.emit v).corruptInfo = s.corruptInfo := rfl
@[simp] theorem State.emit_freeCount (v : Byte) : (s.emit v).freeCount = s.freeCount := rfl

/-! ### setPhase -/

@[simp] theorem State.setPhase_coding (p : Phase) : (s.setPhase p).coding = s.coding := rfl
@[simp] theorem State.setPhase_treeIndex (p : Phase) : (s.setPhase p).treeIndex = s.treeIndex := rfl
@[simp] theorem State.setPhase_heldBits (p : Phase) : (s.setPhase p).heldBits = s.heldBits := rfl
@[simp] theorem State.setPhase_heldCount (p : Phase) : (s.setPhase p).heldCount = s.heldCount := rfl
@[simp] theorem State.setPhase_fault (p : Phase) : (s.setPhase p).fault = s.fault := rfl
@[simp] theorem State.setPhase_fcause (p : Phase) : (s.setPhase p).fcause = s.fcause := rfl
@[simp] theorem State.setPhase_run (p : Phase) : (s.setPhase p).run = s.run.map (fun r => r.inPhase p) := rfl
@[simp] theorem State.setPhase_dst (p : Phase) : (s.setPhase p).dst = s.dst := rfl
@[simp] theorem State.setPhase_response (p : Phase) : (s.setPhase p).response = s.response := rfl
@[simp] theorem State.setPhase_requests (p : Phase) : (s.setPhase p).requests = s.requests := rfl
@[simp] theorem State.setPhase_corruptInfo (p : Phase) : (s.setPhase p).corruptInfo = s.corruptInfo := rfl
@[simp] theorem State.setPhase_freeCount (p : Phase) : (s.setPhase p).freeCount = s.freeCount := rfl

/-! ### refill -/

@[simp] theorem State.refill_coding (b : Byte) : (s.refill b).coding = s.coding := rfl
@[simp] theorem State.refill_treeIndex (b : Byte) : (s.refill b).treeIndex = s.treeIndex := rfl
@[simp] theorem State.refill_heldBits (b : Byte) : (s.refill b).heldBits = (s.heldBits <<< 8) ||| b.setWidth 32 := rfl
@[simp] theorem State.refill_heldCount (b : Byte) : (s.refill b).heldCount = s.heldCount + 8 := rfl
@[simp] theorem State.refill_fault (b : Byte) : (s.refill b).fault = s.fault := rfl
@[simp] theorem State.refill_fcause (b : Byte) : (s.refill b).fcause = s.fcause := rfl
@[simp] theorem State.refill_run (b : Byte) : (s.refill b).run = s.run.map Run.advance := rfl
@[simp] theorem State.refill_dst (b : Byte) : (s.refill b).dst = s.dst := rfl
@[simp] theorem State.refill_response (b : Byte) : (s.refill b).response = s.response := rfl
@[simp] theorem State.refill_requests (b : Byte) : (s.refill b).requests = s.requests := rfl
@[simp] theorem State.refill_corruptInfo (b : Byte) : (s.refill b).corruptInfo = s.corruptInfo := rfl
@[simp] theorem State.refill_freeCount (b : Byte) : (s.refill b).freeCount = s.freeCount := rfl

/-! ### respond -/

@[simp] theorem State.respond_coding (r : Response) : (s.respond r).coding = s.coding := rfl
@[simp] theorem State.respond_treeIndex (r : Response) : (s.respond r).treeIndex = s.treeIndex := rfl
@[simp] theorem State.respond_heldBits (r : Response) : (s.respond r).heldBits = s.heldBits := rfl
@[simp] theorem State.respond_heldCount (r : Response) : (s.respond r).heldCount = s.heldCount := rfl
@[simp] theorem State.respond_fault (r : Response) : (s.respond r).fault = s.fault := rfl
@[simp] theorem State.respond_fcause (r : Response) : (s.respond r).fcause = s.fcause := rfl
@[simp] theorem State.respond_run (r : Response) : (s.respond r).run = none := rfl
@[simp] theorem State.respond_dst (r : Response) : (s.respond r).dst = s.dst := rfl
@[simp] theorem State.respond_response (r : Response) : (s.respond r).response = some r := rfl
@[simp] theorem State.respond_requests (r : Response) : (s.respond r).requests = s.requests := rfl
@[simp] theorem State.respond_corruptInfo (r : Response) : (s.respond r).corruptInfo = s.corruptInfo := rfl
@[simp] theorem State.respond_freeCount (r : Response) : (s.respond r).freeCount = s.freeCount := rfl

/-! ### startRun -/

@[simp] theorem State.startRun_coding (k : RunKind) (n : Nat) (src : List Byte) : (s.startRun k n src).coding = s.coding := rfl
@[simp] theorem State.startRun_treeIndex (k : RunKind) (n : Nat) (src : List Byte) : (s.startRun k n src).treeIndex = s.treeIndex := rfl
@[simp] theorem State.startRun_heldBits (k : RunKind) (n : Nat) (src : List Byte) : (s.startRun k n src).heldBits = s.heldBits := rfl
@[simp] theorem State.startRun_heldCount (k : RunKind) (n : Nat) (src : List Byte) : (s.startRun k n src).heldCount = s.heldCount := rfl
@[simp] theorem State.startRun_fault (k : RunKind) (n : Nat) (src : List Byte) : (s.startRun k n src).fault = s.fault := rfl
@[simp] theorem State.startRun_fcause (k : RunKind) (n : Nat) (src : List Byte) : (s.startRun k n src).fcause = s.fcause := rfl
@[simp] theorem State.startRun_run (k : RunKind) (n : Nat) (src : List Byte) : (s.startRun k n src).run = some { kind := k, dstCap := n, src := src, nSrc := 0, phase := .extract } := rfl
@[simp] theorem State.startRun_dst (k : RunKind) (n : Nat) (src : List Byte) : (s.startRun k n src).dst = [] := rfl
@[simp] theorem State.startRun_response (k : RunKind) (n : Nat) (src : List Byte) : (s.startRun k n src).response = s.response := rfl
@[simp] theorem State.startRun_requests (k : RunKind) (n : Nat) (src : List Byte) : (s.startRun k n src).requests = s.requests := rfl
@[simp] theorem State.startRun_corruptInfo (k : RunKind) (n : Nat) (src : List Byte) : (s.startRun k n src).corruptInfo = s.corruptInfo := rfl
@[simp] theorem State.startRun_freeCount (k : RunKind) (n : Nat) (src : List Byte) : (s.startRun k n src).freeCount = s.freeCount := rfl

/-! ### construct -/

@[simp] theorem State.construct_coding (c : Coding) : (s.construct c).coding = some c := rfl
@[simp] theorem State.construct_treeIndex (c : Coding) : (s.construct c).treeIndex = (c.treeIndexStart : Int) := rfl
@[simp] theorem State.construct_heldBits (c : Coding) : (s.construct c).heldBits = 0#32 := rfl
@[simp] theorem State.construct_heldCount (c : Coding) : (s.construct c).heldCount = 0 := rfl
@[simp] theorem State.construct_fault (c : Coding) : (s.construct c).fault = false := rfl
@[simp] theorem State.construct_fcause (c : Coding) : (s.construct c).fcause = .noFault := rfl
@[simp] theorem State.construct_run (c : Coding) : (s.construct c).run = s.run := rfl
@[simp] theorem State.construct_dst (c : Coding) : (s.construct c).dst = s.dst := rfl
@[simp] theorem State.construct_response (c : Coding) : (s.construct c).response = s.response := rfl
@[simp] theorem State.construct_requests (c : Coding) : (s.construct c).requests = s.requests := rfl
@[simp] theorem State.construct_corruptInfo (c : Coding) : (s.construct c).corruptInfo = none := rfl
@[simp] theorem State.construct_freeCount (c : Coding) : (s.construct c).freeCount = s.freeCount := rfl

/-! ### raiseCodingCorrupt -/

@[simp] theorem State.raiseCodingCorrupt_coding (i : CorruptInfo) : (s.raiseCodingCorrupt i).coding = s.coding := rfl
@[simp] theorem State.raiseCodingCorrupt_treeIndex (i : CorruptInfo) : (s.raiseCodingCorrupt i).treeIndex = Config.freeTreeIndex s.freeCount := rfl
@[simp] theorem State.raiseCodingCorrupt_heldBits (i : CorruptInfo) : (s.raiseCodingCorrupt i).heldBits = Config.freeHeldBits s.freeCount := rfl
@[simp] theorem State.raiseCodingCorrupt_heldCount (i : CorruptInfo) : (s.raiseCodingCorrupt i).heldCount = (Config.freeHeldCount s.freeCount).toNat := rfl
@[simp] theorem State.raiseCodingCorrupt_fault (i : CorruptInfo) : (s.raiseCodingCorrupt i).fault = true := rfl
@[simp] theorem State.raiseCodingCorrupt_fcause (i : CorruptInfo) : (s.raiseCodingCorrupt i).fcause = .codingCorrupt := rfl
@[simp] theorem State.raiseCodingCorrupt_run (i : CorruptInfo) : (s.raiseCodingCorrupt i).run = none := rfl
@[simp] theorem State.raiseCodingCorrupt_dst (i : CorruptInfo) : (s.raiseCodingCorrupt i).dst = s.dst := rfl
@[simp] theorem State.raiseCodingCorrupt_response (i : CorruptInfo) : (s.raiseCodingCorrupt i).response = some .fault := rfl
@[simp] theorem State.raiseCodingCorrupt_requests (i : CorruptInfo) : (s.raiseCodingCorrupt i).requests = s.requests := rfl
@[simp] theorem State.raiseCodingCorrupt_corruptInfo (i : CorruptInfo) : (s.raiseCodingCorrupt i).corruptInfo = some i := rfl
@[simp] theorem State.raiseCodingCorrupt_freeCount (i : CorruptInfo) : (s.raiseCodingCorrupt i).freeCount = s.freeCount + 1 := rfl

/-! ### The command in progress -/

@[simp] theorem Run.advance_kind (r : Run) : r.advance.kind = r.kind := rfl
@[simp] theorem Run.advance_dstCap (r : Run) : r.advance.dstCap = r.dstCap := rfl
@[simp] theorem Run.advance_src (r : Run) : r.advance.src = r.src := rfl
@[simp] theorem Run.advance_nSrc (r : Run) : r.advance.nSrc = r.nSrc + 1 := rfl
@[simp] theorem Run.advance_phase (r : Run) : r.advance.phase = r.phase := rfl
@[simp] theorem Run.inPhase_kind (r : Run) (p : Phase) : (r.inPhase p).kind = r.kind := rfl
@[simp] theorem Run.inPhase_dstCap (r : Run) (p : Phase) : (r.inPhase p).dstCap = r.dstCap := rfl
@[simp] theorem Run.inPhase_src (r : Run) (p : Phase) : (r.inPhase p).src = r.src := rfl
@[simp] theorem Run.inPhase_nSrc (r : Run) (p : Phase) : (r.inPhase p).nSrc = r.nSrc := rfl
@[simp] theorem Run.inPhase_phase (r : Run) (p : Phase) : (r.inPhase p).phase = p := rfl

end Sys2Proof.Machine
end

