-- ==== Sys2Proof/Laws/Decode.lean ====
section
/-! SUPPORT. The decoder of pointer words never gives a command, and gives the constructor its tag names. -/

namespace Sys2Proof

theorem decodePtr_isPointer {tw : Nat} (w : PtrWord tw) : (decodePtr w).isPointer = true := by
  unfold decodePtr
  split
  · rfl
  · split
    · rfl
    · split <;> rfl

/-- The tag has four values. -/
theorem kind_cases (k : BitVec 2) : k = kindDescend ∨ k = kindReturn ∨ k = kindInvalid0 ∨ k = kindInvalid3 := by
  revert k; decide

section
variable {tw : Nat} (w : BitVec (tw + 8))

theorem decodePtr_descend (h : ptrKind w = kindDescend) :
    decodePtr w = .descend (ptrConsumeBits w) (ptrOffset w) := by
  simp [decodePtr, h]

theorem decodePtr_ret (h : ptrKind w = kindReturn) : decodePtr w = .ret (ptrConsumeBits w) (ptrSymbol w) := by
  simp [decodePtr, h, kindReturn, kindDescend]

theorem decodePtr_invalid0 (h : ptrKind w = kindInvalid0) : decodePtr w = .invalid0 (ptrConsumeBits w) := by
  simp [decodePtr, h, kindReturn, kindDescend, kindInvalid0]

theorem decodePtr_invalid3 (h : ptrKind w = kindInvalid3) : decodePtr w = .invalid3 (ptrConsumeBits w) := by
  simp [decodePtr, h, kindReturn, kindDescend, kindInvalid0, kindInvalid3]

theorem ptrConsumeBits_lt : ptrConsumeBits w < 64 := (w.extractLsb' 0 6).isLt

end

/-! ### The fields of a word, as numbers -/

section
variable {tw : Nat} (w : BitVec (tw + 8))

theorem ptrConsumeBits_eq : ptrConsumeBits w = w.toNat % 64 := by
  simp [ptrConsumeBits, BitVec.extractLsb'_toNat]

theorem ptrKind_toNat : (ptrKind w).toNat = w.toNat / 64 % 4 := by
  simp [ptrKind, BitVec.extractLsb'_toNat, Nat.shiftRight_eq_div_pow]

theorem ptrTarget_toNat : (ptrTarget w).toNat = w.toNat / 256 := by
  have h := w.isLt
  rw [Nat.pow_add] at h
  simp only [ptrTarget, BitVec.extractLsb'_toNat, Nat.shiftRight_eq_div_pow]
  exact Nat.mod_eq_of_lt (Nat.div_lt_of_lt_mul (by omega))

end

/-- A packed word is its three fields side by side (30 R81). -/
theorem packPtr_toNat {tw : Nat} (target : BitVec tw) (kind : BitVec 2) (n : Nat) :
    (packPtr target kind n).toNat = target.toNat * 256 + kind.toNat * 64 + n % 64 := by
  have low : (kind ++ BitVec.ofNat 6 n).toNat = kind.toNat * 64 + n % 64 := by
    rw [BitVec.toNat_append, ← Nat.shiftLeft_add_eq_or_of_lt (BitVec.ofNat 6 n).isLt, Nat.shiftLeft_eq]
    simp
  have h := (kind ++ BitVec.ofNat 6 n).isLt
  show (target ++ (kind ++ BitVec.ofNat 6 n)).toNat = _
  rw [BitVec.toNat_append, ← Nat.shiftLeft_add_eq_or_of_lt h, Nat.shiftLeft_eq, low]
  omega

theorem ptrKind_packPtr {tw : Nat} (target : BitVec tw) (kind : BitVec 2) (n : Nat) :
    ptrKind (packPtr target kind n) = kind := by
  have := kind.isLt
  apply BitVec.eq_of_toNat_eq
  rw [ptrKind_toNat, packPtr_toNat]
  omega

theorem ptrTarget_packPtr {tw : Nat} (target : BitVec tw) (kind : BitVec 2) (n : Nat) :
    ptrTarget (packPtr target kind n) = target := by
  have := kind.isLt
  apply BitVec.eq_of_toNat_eq
  rw [ptrTarget_toNat, packPtr_toNat]
  omega

theorem ptrConsumeBits_packPtr {tw : Nat} (target : BitVec tw) (kind : BitVec 2) (n : Nat) :
    ptrConsumeBits (packPtr target kind n) = n % 64 := by
  rw [ptrConsumeBits_eq, packPtr_toNat]
  omega

/-- The word that nothing has written is an invalid kind asking for no bits (30 R82). -/
theorem decodePtr_unlisted {tw : Nat} : decodePtr (Memory.unlisted (tw := tw)) = .invalid0 0 := by
  have k : ptrKind (Memory.unlisted (tw := tw)) = kindInvalid0 := by
    apply BitVec.eq_of_toNat_eq
    simp [ptrKind_toNat, Memory.unlisted, kindInvalid0]
  have n : ptrConsumeBits (Memory.unlisted (tw := tw)) = 0 := by simp [ptrConsumeBits_eq, Memory.unlisted]
  rw [decodePtr_invalid0 _ k, n]

end Sys2Proof
end

