-- ==== Sys2Proof/Laws/Memory.lean ====
section
/-! SUPPORT. The table memory: a read after a write, and the canonical form that every memory operation keeps. -/

namespace Sys2Proof

section
variable {tw : Nat}

theorem Memory.read_write_same (m : Memory tw) (a : Nat) (w : PtrWord tw) (hm : Memory.wf m = true) :
    (Memory.write m a w).read a = w := by
  induction m with
  | nil => unfold Memory.write; split <;> simp_all [Memory.read]
  | cons cell rest ih =>
    obtain ⟨b, v⟩ := cell
    simp only [Memory.wf, Bool.and_eq_true, List.all_eq_true, decide_eq_true_eq] at hm
    have absent : ∀ (r : Memory tw), (∀ x ∈ r, a < x.1) → Memory.read r a = Memory.unlisted := by
      intro r hr
      induction r with
      | nil => rfl
      | cons c r ihr =>
        have := hr c (by simp)
        simp only [Memory.read]
        rw [if_neg (by omega)]
        exact ihr fun x hx => hr x (by simp [hx])
    unfold Memory.write
    split
    · split
      · subst w
        exact absent _ fun x hx => by
          rcases List.mem_cons.mp hx with rfl | hx
          · assumption
          · exact lt_trans ‹a < b› (hm.1.2 x hx)
      · simp [Memory.read]
    · split
      · split
        · subst w; subst b
          exact absent _ fun x hx => hm.1.2 x hx
        · simp [Memory.read]
      · simp only [Memory.read]
        rw [if_neg ‹_›]
        exact ih hm.2

theorem Memory.read_write_other (m : Memory tw) (a a' : Nat) (w : PtrWord tw) (h : a' ≠ a) :
    (Memory.write m a w).read a' = m.read a' := by
  induction m with
  | nil => unfold Memory.write; split <;> simp [Memory.read, h]
  | cons cell rest ih =>
    obtain ⟨b, v⟩ := cell
    unfold Memory.write
    split
    · split <;> simp [Memory.read, h]
    · split
      · split <;> simp [Memory.read, h, ‹a = b› ▸ h]
      · simp [Memory.read, ih]

/-- Where the cells of a written memory come from. -/
theorem Memory.mem_write (m : Memory tw) (a : Nat) (w : PtrWord tw) (x : Nat × PtrWord tw) (hx : x ∈ Memory.write m a w) :
    x ∈ m ∨ x = (a, w) := by
  induction m with
  | nil => unfold Memory.write at hx; split at hx <;> simp_all
  | cons cell rest ih =>
    obtain ⟨b, v⟩ := cell
    unfold Memory.write at hx
    split at hx
    · split at hx <;> simp_all
      tauto
    · split at hx
      · split at hx
        · exact .inl (by simp [hx])
        · rcases List.mem_cons.mp hx with h | h
          · exact .inr h
          · exact .inl (by simp [h])
      · rcases List.mem_cons.mp hx with h | h
        · exact .inl (by simp [h])
        · rcases ih h with h | h
          · exact .inl (by simp [h])
          · exact .inr h

/-- A write keeps the canonical form. -/
theorem Memory.write_wf (m : Memory tw) (a : Nat) (w : PtrWord tw) (hm : Memory.wf m = true) :
    Memory.wf (Memory.write m a w) = true := by
  induction m with
  | nil => unfold Memory.write; split <;> simp_all [Memory.wf]
  | cons cell rest ih =>
    obtain ⟨b, v⟩ := cell
    have hm' := hm
    simp only [Memory.wf, Bool.and_eq_true, List.all_eq_true, decide_eq_true_eq, bne_iff_ne] at hm
    unfold Memory.write
    split
    · split
      · exact hm'
      · simp only [Memory.wf, Bool.and_eq_true, List.all_eq_true, decide_eq_true_eq, bne_iff_ne, List.mem_cons]
        refine ⟨⟨‹_›, ?_⟩, hm⟩
        rintro x (rfl | hx)
        · assumption
        · exact lt_trans ‹a < b› (hm.1.2 x hx)
    · split
      · split
        · exact hm.2
        · simp only [Memory.wf, Bool.and_eq_true, List.all_eq_true, decide_eq_true_eq, bne_iff_ne]
          exact ⟨⟨‹_›, ‹a = b› ▸ hm.1.2⟩, hm.2⟩
      · simp only [Memory.wf, Bool.and_eq_true, List.all_eq_true, decide_eq_true_eq, bne_iff_ne]
        refine ⟨⟨hm.1.1, fun x hx => ?_⟩, ih hm.2⟩
        rcases Memory.mem_write rest a w x hx with h | h
        · exact hm.1.2 x h
        · subst h; simp only; omega

/-- An address that no cell has reads as unlisted. -/
theorem Memory.read_absent (m : Memory tw) (a : Nat) (h : ∀ x ∈ m, x.1 ≠ a) : m.read a = Memory.unlisted := by
  induction m with
  | nil => rfl
  | cons cell rest ih =>
    have hc : a ≠ cell.1 := fun e => h cell (by simp) e.symm
    simp only [Memory.read, if_neg hc]
    exact ih fun x hx => h x (by simp [hx])

/-- A word read is unlisted or the word of a cell at that address. -/
theorem Memory.read_cases (m : Memory tw) (a : Nat) : m.read a = Memory.unlisted ∨ (a, m.read a) ∈ m := by
  induction m with
  | nil => exact .inl rfl
  | cons cell rest ih =>
    obtain ⟨b, v⟩ := cell
    by_cases h : a = b
    · subst h; exact .inr (by simp [Memory.read])
    · simp only [Memory.read, if_neg h]
      exact ih.imp id fun h => List.mem_cons_of_mem _ h

/-- A cell of a canonical memory is what its address reads. -/
theorem Memory.read_mem (m : Memory tw) (hm : Memory.wf m = true) (x : Nat × PtrWord tw) (hx : x ∈ m) : m.read x.1 = x.2 := by
  induction m with
  | nil => simp at hx
  | cons cell rest ih =>
    obtain ⟨b, v⟩ := cell
    simp only [Memory.wf, Bool.and_eq_true, List.all_eq_true, decide_eq_true_eq, bne_iff_ne] at hm
    rcases List.mem_cons.mp hx with rfl | hx
    · simp [Memory.read]
    · have := hm.1.2 x hx
      simp only [Memory.read]
      rw [if_neg (by omega)]
      exact ih hm.2 hx

/-- The memory that no write has touched is canonical, and so is the Coding over it. -/
theorem Memory.wf_nil : Memory.wf (tw := tw) [] = true := rfl

end

theorem Coding.blank_canonical : Coding.blank.canonical = true := rfl
theorem Coding.blank_wf : Coding.blank.wf = true := rfl

/-- State.reset holds no memory but a canonical one: the Decoder has no Coding yet. -/
theorem State.reset_memory_canonical (c : Coding) (h : Machine.State.reset.coding = some c) : c.canonical = true := by
  simp [Machine.State.reset] at h

/-- A Coding that passes the check is in canonical form. -/
theorem Coding.canonical_of_wf (c : Coding) (h : c.wf = true) : c.canonical = true := by
  simp only [Coding.wf, Bool.and_eq_true] at h
  exact h.1.1

/-- A flat address gives its node back, and its slot. -/
theorem Coding.flatAddress_node (c : Coding) (i s : Nat) (hs : s < c.slots) : c.flatAddress i s / c.slots = i := by
  unfold Coding.flatAddress
  rw [Nat.add_comm, Nat.add_mul_div_right _ _ (by omega), Nat.div_eq_of_lt hs, Nat.zero_add]

theorem Coding.flatAddress_slot (c : Coding) (i s : Nat) (hs : s < c.slots) : c.flatAddress i s % c.slots = s := by
  unfold Coding.flatAddress
  rw [Nat.add_comm, Nat.add_mul_mod_self_right, Nat.mod_eq_of_lt hs]

/-- A flat address of the table lies below its size. -/
theorem Coding.flatAddress_lt (c : Coding) (i s : Nat) (hi : i < c.nodeCount) (hs : s < c.slots) :
    c.flatAddress i s < c.size := by
  have : (i + 1) * c.slots ≤ c.nodeCount * c.slots := Nat.mul_le_mul_right _ hi
  rw [Nat.add_mul, Nat.one_mul] at this
  unfold Coding.flatAddress Coding.size
  omega

/-- `TblRead` answers exactly at the addresses of the table. -/
theorem Coding.tblRead_eq_some (c : Coding) (i s : Nat) (hi : i < c.nodeCount) (hs : s < c.slots) :
    c.tblRead (i : Int) s = some (c.word i s) := by
  have : c.inTable (i : Int) s = true := by simp [Coding.inTable, hi, hs]
  simp [Coding.tblRead, this]

theorem Coding.tblRead_eq_none (c : Coding) (i : Int) (s : Nat)
    (h : i < 0 ∨ (c.nodeCount : Int) ≤ i ∨ c.slots ≤ s) : c.tblRead i s = none := by
  have : c.inTable i s = false := by
    simp only [Coding.inTable, Bool.and_eq_false_iff, decide_eq_false_iff_not]; omega
  simp [Coding.tblRead, this]

end Sys2Proof
end

