-- ==== Sys2Proof/Laws/Table.lean ====
section
/-! SUPPORT. What a Coding that passed the check guarantees of every word a lookup can find, and when a lookup finds
one. -/

namespace Sys2Proof

theorem Coding.inTable_iff (c : Coding) (i : Int) (s : Nat) :
    c.inTable i s = true ↔ 0 ≤ i ∧ i < (c.nodeCount : Int) ∧ s < c.slots := by
  simp [Coding.inTable, and_assoc]

/-- The check of one pointer word, condition by condition. -/
theorem Coding.pointerOk_iff (c : Coding) (i : Nat) (w : PtrWord c.targetW) :
    c.pointerOk i w = true ↔
      ptrConsumeBits w ≤ c.treeShift ∧
      (∀ n offset, decodePtr w = .descend n offset →
        0 ≤ (i : Int) + offset ∧ (i : Int) + offset < (c.nodeCount : Int) ∧ 1 ≤ n) ∧
      (∀ n symbol, decodePtr w = .ret n symbol → ptrReserved w = 0) := by
  unfold Coding.pointerOk
  rcases kind_cases (ptrKind w) with h | h | h | h
  · rw [decodePtr_descend w h]; simp; tauto
  · rw [decodePtr_ret w h]; simp
  · rw [decodePtr_invalid0 w h]; simp
  · rw [decodePtr_invalid3 w h]; simp

/-- The word nothing has written passes. -/
theorem Coding.pointerOk_unlisted (c : Coding) (i : Nat) : c.pointerOk i Memory.unlisted = true := by
  simp [Coding.pointerOk, decodePtr_unlisted]

/-- Every word of the table passes, listed or not. -/
theorem Coding.pointerOk_of_wf (c : Coding) (h : c.wf = true) (i s : Nat) (hs : s < c.slots) :
    c.pointerOk i (c.word i s) = true := by
  simp only [Coding.wf, Bool.and_eq_true, List.all_eq_true] at h
  rcases Memory.read_cases c.table (c.flatAddress i s) with e | e
  · rw [Coding.word, e]; exact c.pointerOk_unlisted i
  · have := h.2 _ e
    simp only [c.flatAddress_node i s hs] at this
    exact this

theorem Coding.WF2_of_wf (c : Coding) (h : c.wf = true) : c.WF2 := by
  simp [Coding.wf, Coding.constantsOk, Config.maxTreeShift, Config.minTreeShift] at h
  unfold Coding.WF2
  omega

namespace Machine

/-- Masking is reduction modulo a power of two. -/
theorem toNat_and_mask (x : AccWord) (t : Nat) (ht : t ≤ 32) : (x &&& mask t).toNat = x.toNat % 2 ^ t := by
  have hle : (2 : Nat) ^ t ≤ 2 ^ 32 := Nat.pow_le_pow_right (by omega) ht
  have hpos : 0 < (2 : Nat) ^ t := Nat.two_pow_pos t
  rw [BitVec.toNat_and, mask, BitVec.toNat_ofNat, Nat.mod_eq_of_lt (by omega), Nat.and_two_pow_sub_one_eq_mod]

/-- A selector is a slot of the node. -/
theorem State.select_lt (s : State) (c : Coding) (h : c.treeShift ≤ 32) : s.select c < c.slots := by
  unfold State.select selector Coding.slots
  split <;> rw [toNat_and_mask _ _ h] <;> exact Nat.mod_lt _ (Nat.two_pow_pos _)

/-- LOOKUP is the table's word, decoded. -/
theorem State.lookup_eq (s : State) (c : Coding) (hc : s.coding = some c) :
    s.lookup = (c.tblRead s.treeIndex (s.select c)).map decodePtr := by
  simp only [State.lookup, hc]

/-- What a lookup reads. -/
theorem State.tblRead_eq_some (s : State) (c : Coding) (w : PtrWord c.targetW) :
    c.tblRead s.treeIndex (s.select c) = some w ↔
      0 ≤ s.treeIndex ∧ s.treeIndex < (c.nodeCount : Int) ∧ s.select c < c.slots ∧
        w = c.word s.treeIndex.toNat (s.select c) := by
  simp only [Coding.tblRead]
  by_cases h : c.inTable s.treeIndex (s.select c) = true
  · rw [if_pos h]
    rw [Coding.inTable_iff] at h
    simp [h, eq_comm]
  · rw [if_neg h]
    rw [Coding.inTable_iff] at h
    simp only [reduceCtorEq, false_iff]
    tauto

/-- On a constructed Decoder that meets the invariant and is not faulted every lookup finds a word, and the word has
passed the check. -/
theorem State.lookup_of_inv (s : State) (c : Coding) (hs : s.Inv) (hc : s.coding = some c) (hf : s.fault = false) :
    c.tblRead s.treeIndex (s.select c) = some (c.word s.treeIndex.toNat (s.select c)) ∧
      c.pointerOk s.treeIndex.toNat (c.word s.treeIndex.toNat (s.select c)) = true := by
  obtain ⟨hcoding, _, hindex, _, _⟩ := hs
  have hwf := hcoding c hc
  obtain ⟨_, _, _, ht⟩ := c.WF2_of_wf hwf
  have hsel := s.select_lt c (by omega)
  obtain ⟨h0, h1⟩ := hindex c hc hf
  exact ⟨(s.tblRead_eq_some c _).2 ⟨h0, h1, hsel, rfl⟩, c.pointerOk_of_wf hwf _ _ hsel⟩

end Machine

end Sys2Proof
end

