-- ==== Sys2Proof/Laws/Accumulator.lean ====
section
/-! SUPPORT. The accumulator as numbers: REFILL appends eight bits, REFILL_ALL as many bytes as fit, CONSUME drops the
oldest bits of the window. -/

namespace Sys2Proof

/-- A foldl of bytes is the value of the bytes after the start value. -/
theorem bytesValue_foldl (l : List Byte) : ∀ a : Nat,
    l.foldl (fun n b => 256 * n + b.toNat) a = a * 256 ^ l.length + bytesValue l := by
  induction l with
  | nil => intro a; simp [bytesValue]
  | cons b l ih =>
    intro a
    have e : bytesValue (b :: l) = (256 * 0 + b.toNat) * 256 ^ l.length + bytesValue l := ih _
    rw [List.foldl_cons, ih, e, List.length_cons, Nat.pow_succ]
    ring

theorem bytesValue_cons (b : Byte) (l : List Byte) :
    bytesValue (b :: l) = b.toNat * 256 ^ l.length + bytesValue l := by
  have e : bytesValue (b :: l) = (256 * 0 + b.toNat) * 256 ^ l.length + bytesValue l := bytesValue_foldl l _
  rw [e, Nat.mul_zero, Nat.zero_add]

theorem bytesValue_append (l l' : List Byte) :
    bytesValue (l ++ l') = bytesValue l * 256 ^ l'.length + bytesValue l' := by
  rw [bytesValue, List.foldl_append]
  exact bytesValue_foldl l' _

namespace Machine

theorem State.hasRoom_iff (s : State) : s.hasRoom = true ↔ s.heldCount ≤ 24 := by
  simp only [State.hasRoom, decide_eq_true_eq]; omega

theorem State.stalls_iff (s : State) (n : Nat) : s.stalls n = true ↔ s.heldCount < n := by
  simp [State.stalls]

theorem State.dstFull_iff (s : State) (r : Run) : s.dstFull r = true ↔ r.dstCap ≤ s.dst.length := by
  simp [State.dstFull]

theorem Run.srcUsedUp_iff (r : Run) : r.srcUsedUp = true ↔ r.src.length ≤ r.nSrc := by
  simp [Run.srcUsedUp]

theorem State.refill_heldBits_toNat (s : State) (b : Byte) :
    (s.refill b).heldBits.toNat = (s.heldBits.toNat * 256 + b.toNat) % 2 ^ 32 := by
  have hb := b.isLt
  have hl := s.heldBits.isLt
  rw [State.refill_heldBits, BitVec.toNat_or, BitVec.toNat_shiftLeft, BitVec.toNat_setWidth, Nat.shiftLeft_eq,
    Nat.mod_eq_of_lt (a := b.toNat) (by omega)]
  have : s.heldBits.toNat * 2 ^ 8 % 2 ^ 32 = (s.heldBits.toNat % 2 ^ 24) <<< 8 := by rw [Nat.shiftLeft_eq]; omega
  rw [this, ← Nat.shiftLeft_add_eq_or_of_lt hb, Nat.shiftLeft_eq]
  omega

/-- Everything REFILL_ALL does, said once: it ingests `n` bytes, as many as fit. -/
theorem State.refillAll_spec (bytes : List Byte) : ∀ s : State,
    ∃ n hb, n = min bytes.length ((32 - s.heldCount) / 8) ∧
      State.refillAll bytes s =
        { s with heldBits := hb, heldCount := s.heldCount + 8 * n,
                 run := s.run.map (fun r => { r with nSrc := r.nSrc + n }) } ∧
      hb.toNat = (s.heldBits.toNat * 256 ^ n + bytesValue (bytes.take n)) % 2 ^ 32 := by
  induction bytes with
  | nil =>
    intro s
    refine ⟨0, s.heldBits, by simp, by simp [State.refillAll], ?_⟩
    simp [bytesValue, Nat.mod_eq_of_lt s.heldBits.isLt]
  | cons b bs ih =>
    intro s
    unfold State.refillAll
    by_cases hroom : s.hasRoom = true
    · rw [if_pos hroom]
      rw [State.hasRoom_iff] at hroom
      obtain ⟨n, hb, hn, e, hv⟩ := ih (s.refill b)
      rw [State.refill_heldCount] at hn
      refine ⟨n + 1, hb, by rw [hn, List.length_cons]; omega, ?_, ?_⟩
      · rw [e]
        simp only [State.refill, State.mk.injEq, Option.map_map, and_true, true_and]
        refine ⟨by omega, ?_⟩
        congr 1
        funext r
        simp only [Function.comp, Run.advance, Run.mk.injEq, and_true, true_and]
        omega
      · have hlen : (bs.take n).length = n := by rw [List.length_take]; omega
        have swap : ((s.heldBits.toNat * 256 + b.toNat) % 2 ^ 32 * 256 ^ n + bytesValue (bs.take n)) % 2 ^ 32 =
            ((s.heldBits.toNat * 256 + b.toNat) * 256 ^ n + bytesValue (bs.take n)) % 2 ^ 32 := by
          rw [Nat.add_mod, Nat.mod_mul_mod, ← Nat.add_mod]
        rw [hv, State.refill_heldBits_toNat, List.take_succ_cons, bytesValue_cons, hlen, Nat.pow_succ]
        refine swap.trans ?_
        congr 1
        ring
    · rw [if_neg hroom]
      rw [State.hasRoom_iff] at hroom
      refine ⟨0, s.heldBits, by omega, by simp, ?_⟩
      simp [bytesValue, Nat.mod_eq_of_lt s.heldBits.isLt]

end Machine

end Sys2Proof
end

