-- ==== Sys2Proof/Laws/Pointers.lean ====
section
/-! SUPPORT. Everything a pointer word can do, said once: it is refused outside an extraction, stalls, or dispatches. -/

namespace Sys2Proof.Machine

/-- What it is to be in an iteration of EXTRACT with room in `dst`. -/
theorem State.extraction_eq_some (s : State) (c : Coding) (r : Run) :
    s.extraction = some (c, r) ↔
      s.coding = some c ∧ s.run = some r ∧ s.fault = false ∧ r.phase = .extract ∧ s.dst.length < r.dstCap := by
  unfold State.extraction
  split
  · rename_i c' r' hc hr
    rw [hc, hr]
    simp only [State.dstFull, decide_eq_false_iff_not, Nat.not_le, Option.some.injEq]
    constructor
    · intro h
      split at h
      · obtain ⟨rfl, rfl⟩ := Prod.mk.inj (Option.some.inj h)
        exact ⟨rfl, rfl, ‹_ ∧ _ ∧ _›⟩
      · cases h
    · rintro ⟨rfl, rfl, h⟩
      rw [if_pos h]
  · rename_i h
    constructor
    · intro h'; cases h'
    · rintro ⟨hc, hr, _⟩
      exact (h c r hc hr).elim

section
variable (n : Nat) (dispatch : Coding → State → State) (s : State)

theorem takePointer_refused (h : s.extraction = none) : takePointer n dispatch s = .refused .noExtraction := by
  simp [takePointer, h]

theorem takePointer_stall (c : Coding) (r : Run) (h : s.extraction = some (c, r)) (hn : s.heldCount < n) :
    takePointer n dispatch s = .next (s.setPhase .needInput) := by
  simp [takePointer, h, State.stalls, hn]

theorem takePointer_taken (c : Coding) (r : Run) (h : s.extraction = some (c, r)) (hn : n ≤ s.heldCount) :
    takePointer n dispatch s = .next (dispatch c (s.consume n)) := by
  simp [takePointer, h, State.stalls, Nat.not_lt.mpr hn]

/-- The inversion: a pointer that answers a next state stalled, or its dispatch ran. -/
theorem takePointer_next (t : State) (h : takePointer n dispatch s = .next t) :
    ∃ c r, s.extraction = some (c, r) ∧
      ((s.heldCount < n ∧ t = s.setPhase .needInput) ∨ (n ≤ s.heldCount ∧ t = dispatch c (s.consume n))) := by
  match he : s.extraction with
  | none => rw [takePointer_refused n dispatch s he] at h; cases h
  | some (c, r) =>
    refine ⟨c, r, rfl, ?_⟩
    by_cases hn : s.heldCount < n
    · rw [takePointer_stall n dispatch s c r he hn] at h
      exact .inl ⟨hn, by cases h; rfl⟩
    · rw [takePointer_taken n dispatch s c r he (by omega)] at h
      exact .inr ⟨by omega, by cases h; rfl⟩

end

/-! ### The four pointer words are `takePointer` with their own dispatch -/

theorem exec_descend_eq (n : Nat) (offset : Int) (s : State) :
    exec (.descend n offset) s = takePointer n (fun _ t => t.moveTo (t.treeIndex + offset)) s := rfl

theorem exec_ret_eq (n : Nat) (symbol : Byte) (s : State) :
    exec (.ret n symbol) s = takePointer n (fun c t => (t.emit symbol).moveTo (c.treeIndexStart : Int)) s := rfl

theorem exec_invalid0_eq (n : Nat) (s : State) :
    exec (.invalid0 n) s = takePointer n (corruptAt s kindInvalid0) s := rfl

theorem exec_invalid3_eq (n : Nat) (s : State) :
    exec (.invalid3 n) s = takePointer n (corruptAt s kindInvalid3) s := rfl

end Sys2Proof.Machine
end

