-- ==== Sys2Proof/Laws/Extract.lean ====
section
/-! SUPPORT. The micro-steps of a running command, said once, and the induction over a command. -/

namespace Sys2Proof.Machine

/-- The walker runs a pointer word as `exec` runs it. -/
theorem runPointer_eq_exec (i : Instr) (s : State) (h : i.isPointer = true) : runPointer i s = exec i s := by
  cases i <;> first | rfl | simp [Instr.isPointer] at h

theorem runPointer_decodePtr {tw : Nat} (w : PtrWord tw) (s : State) : runPointer (decodePtr w) s = exec (decodePtr w) s :=
  runPointer_eq_exec _ s (decodePtr_isPointer w)

theorem microStep_idle (s : State) (h : s.run = none) : microStep s = .next s := by simp [microStep, h]

theorem microStep_extract (s : State) (r : Run) (h : s.run = some r) (hp : r.phase = .extract) :
    microStep s = extractStep r s := by simp [microStep, h, hp]

theorem microStep_dstFull (s : State) (r : Run) (h : s.run = some r) (hp : r.phase = .dstFull) :
    microStep s = .next (s.respond (s.runResponse r)) := by simp [microStep, h, hp]

theorem microStep_needInput (s : State) (r : Run) (h : s.run = some r) (hp : r.phase = .needInput) :
    microStep s = .next (afterNeedInput r s) := by simp [microStep, h, hp]

/-- The inversion of an iteration of EXTRACT that answers a next state. -/
theorem extractStep_next (r : Run) (s t : State) (h : extractStep r s = .next t) :
    (r.dstCap ≤ s.dst.length ∧ t = s.setPhase .dstFull) ∨
      (s.dst.length < r.dstCap ∧ ∃ pointer, s.lookup = some pointer ∧ runPointer pointer s = .next t) := by
  unfold extractStep State.dstFull at h
  by_cases hf : r.dstCap ≤ s.dst.length
  · rw [if_pos (by simpa using hf)] at h
    exact .inl ⟨hf, by cases h; rfl⟩
  · rw [if_neg (by simpa using hf)] at h
    match hw : s.lookup with
    | none => rw [hw] at h; cases h
    | some w => rw [hw] at h; exact .inr ⟨by omega, w, rfl, h⟩

/-- A command that ends was in progress for as many micro-steps as it took: whatever its micro-steps keep, it keeps. -/
theorem runCommand_keeps (P : State → Prop) (keeps : ∀ s t, P s → microStep s = .next t → P t) :
    ∀ fuel s t, P s → runCommand fuel s = .next t → P t ∧ t.run = none := by
  intro fuel
  induction fuel with
  | zero =>
    intro s t hs h
    unfold runCommand at h
    split at h
    · cases h; exact ⟨hs, ‹_›⟩
    · cases h
  | succ n ih =>
    intro s t hs h
    unfold runCommand at h
    split at h
    · cases h; exact ⟨hs, ‹_›⟩
    · split at h
      · exact ih _ _ (keeps _ _ hs ‹_›) h
      · cases h
      · cases h

/-- A command whose micro-steps each answer a next state and lower a measure ends within that measure. -/
theorem runCommand_ends (P : State → Prop) (measure : State → Nat)
    (steps : ∀ s, P s → s.run ≠ none → ∃ t, microStep s = .next t ∧ P t ∧ measure t < measure s) :
    ∀ fuel s, P s → measure s ≤ fuel → ∃ t, runCommand fuel s = .next t ∧ P t ∧ t.run = none := by
  intro fuel
  induction fuel with
  | zero =>
    intro s hs hm
    match hr : s.run with
    | none => exact ⟨s, by simp [runCommand, hr], hs, hr⟩
    | some r =>
      obtain ⟨t, _, _, hlt⟩ := steps s hs (by simp [hr])
      omega
  | succ n ih =>
    intro s hs hm
    match hr : s.run with
    | none => exact ⟨s, by simp [runCommand, hr], hs, hr⟩
    | some r =>
      obtain ⟨t, ht, hPt, hlt⟩ := steps s hs (by simp [hr])
      obtain ⟨u, hu, hPu⟩ := ih t hPt (by omega)
      exact ⟨u, by simp [runCommand, hr, ht, hu], hPu⟩

/-- DECODE, FLUSH and ALIGNED answer a next state only between commands on a constructed Decoder: the answer
`fault = 1` on a faulted one, else what the command does. -/
theorem onConstructed_next (s t : State) (command : Result) (h : onConstructed s command = .next t) :
    s.run = none ∧ s.coding ≠ none ∧
      ((s.fault = true ∧ t = s.respond .fault) ∨ (s.fault = false ∧ command = .next t)) := by
  unfold onConstructed at h
  split at h
  · cases h
  · cases h
  · rename_i hr hc
    refine ⟨hr, by simp [hc], ?_⟩
    split at h
    · exact .inl ⟨‹_›, by cases h; rfl⟩
    · exact .inr ⟨(Bool.not_eq_true _).mp ‹_›, h⟩

theorem onConstructed_ready (s : State) (c : Coding) (command : Result) (hr : s.run = none) (hc : s.coding = some c)
    (hf : s.fault = false) : onConstructed s command = command := by
  simp [onConstructed, hr, hc, hf]

/-- NEW answers a next state only between commands, for a Coding that passes the check. -/
theorem execNew_next (c : Coding) (s t : State) (h : execNew c s = .next t) :
    s.run = none ∧ c.wf = true ∧ t = (s.construct c).respond (.ok false 0 0) := by
  unfold execNew at h
  split at h
  · cases h
  · split at h
    · exact ⟨‹_›, ‹_›, by cases h; rfl⟩
    · cases h

end Sys2Proof.Machine
end

