-- ==== Sys2Proof/Laws/MicroStep.lean ====
section
/-! SUPPORT. Everything a micro-step of a running command can do, said once, and what it keeps. Each case is one line of
41 R135, 42 R162 or 42 R170. -/

namespace Sys2Proof.Machine

/-- The next state of a micro-step of the command `r` on the Coding `c`. `w` is the word the iteration looked up. -/
inductive MicroStep (s : State) (c : Coding) (r : Run) : State → Prop where
  | full (hp : r.phase = .extract) (hd : r.dstCap ≤ s.dst.length) : MicroStep s c r (s.setPhase .dstFull)
  | stall (hp : r.phase = .extract) (hd : s.dst.length < r.dstCap) (w : PtrWord c.targetW) (hl : c.tblRead s.treeIndex (s.select c) = some w)
      (hn : s.heldCount < ptrConsumeBits w) : MicroStep s c r (s.setPhase .needInput)
  | descend (hp : r.phase = .extract) (hd : s.dst.length < r.dstCap) (w : PtrWord c.targetW) (hl : c.tblRead s.treeIndex (s.select c) = some w)
      (hn : ptrConsumeBits w ≤ s.heldCount)
      (hk : ptrKind w = kindDescend) :
      MicroStep s c r ((s.consume (ptrConsumeBits w)).moveTo
        (s.treeIndex + ptrOffset w))
  | ret (hp : r.phase = .extract) (hd : s.dst.length < r.dstCap) (w : PtrWord c.targetW) (hl : c.tblRead s.treeIndex (s.select c) = some w)
      (hn : ptrConsumeBits w ≤ s.heldCount)
      (hk : ptrKind w = kindReturn) :
      MicroStep s c r (((s.consume (ptrConsumeBits w)).emit
        (ptrSymbol w)).moveTo (c.treeIndexStart : Int))
  | corrupt (hp : r.phase = .extract) (hd : s.dst.length < r.dstCap) (w : PtrWord c.targetW) (hl : c.tblRead s.treeIndex (s.select c) = some w)
      (hn : ptrConsumeBits w ≤ s.heldCount)
      (hk : ptrKind w = kindInvalid0 ∨ ptrKind w = kindInvalid3) :
      MicroStep s c r ((s.consume (ptrConsumeBits w)).raiseCodingCorrupt
        { treeIndex := s.treeIndex, sel := s.select c, kind := ptrKind w })
  | respond (hp : r.phase = .dstFull ∨ (r.phase = .needInput ∧ (r.kind = .flush ∨ r.src.length ≤ r.nSrc))) :
      MicroStep s c r (s.respond (s.runResponse r))
  | refill (hp : r.phase = .needInput) (hk : r.kind = .decode) (hs : r.nSrc < r.src.length) :
      MicroStep s c r ((State.refillAll (r.src.drop r.nSrc) s).setPhase .extract)

/-- The inversion: a micro-step that answers a next state did one of these. -/
theorem microStep_inversion (s : State) (c : Coding) (r : Run) (hc : s.coding = some c) (hr : s.run = some r)
    (t : State) (h : microStep s = .next t) : MicroStep s c r t := by
  match hp : r.phase with
  | .extract =>
    rw [microStep_extract s r hr hp] at h
    rcases extractStep_next r s t h with ⟨hd, rfl⟩ | ⟨hd, pointer, hl, hx⟩
    · exact .full hp hd
    rw [s.lookup_eq c hc, Option.map_eq_some_iff] at hl
    obtain ⟨w, hl, rfl⟩ := hl
    rw [runPointer_decodePtr] at hx
    have sameCoding : ∀ c' r', s.extraction = some (c', r') → c' = c := fun c' r' he =>
      Option.some.inj (((s.extraction_eq_some c' r').1 he).1.symm.trans hc)
    rcases kind_cases (ptrKind w) with hk | hk | hk | hk
    · rw [decodePtr_descend w hk, exec_descend_eq] at hx
      obtain ⟨c', r', he, ⟨hn, rfl⟩ | ⟨hn, rfl⟩⟩ := takePointer_next _ _ s t hx
      · exact .stall hp hd w hl hn
      · exact .descend hp hd w hl hn hk
    · rw [decodePtr_ret w hk, exec_ret_eq] at hx
      obtain ⟨c', r', he, ⟨hn, rfl⟩ | ⟨hn, rfl⟩⟩ := takePointer_next _ _ s t hx
      · exact .stall hp hd w hl hn
      · obtain rfl := sameCoding c' r' he
        exact .ret hp hd w hl hn hk
    · rw [decodePtr_invalid0 w hk, exec_invalid0_eq] at hx
      obtain ⟨c', r', he, ⟨hn, rfl⟩ | ⟨hn, rfl⟩⟩ := takePointer_next _ _ s t hx
      · exact .stall hp hd w hl hn
      · obtain rfl := sameCoding c' r' he
        have := MicroStep.corrupt (s := s) (c := c') hp hd w hl hn (.inl hk)
        rwa [hk] at this
    · rw [decodePtr_invalid3 w hk, exec_invalid3_eq] at hx
      obtain ⟨c', r', he, ⟨hn, rfl⟩ | ⟨hn, rfl⟩⟩ := takePointer_next _ _ s t hx
      · exact .stall hp hd w hl hn
      · obtain rfl := sameCoding c' r' he
        have := MicroStep.corrupt (s := s) (c := c') hp hd w hl hn (.inr hk)
        rwa [hk] at this
  | .dstFull =>
    rw [microStep_dstFull s r hr hp] at h
    cases h
    exact .respond (.inl hp)
  | .needInput =>
    rw [microStep_needInput s r hr hp] at h
    cases h
    unfold afterNeedInput
    match hk : r.kind with
    | .flush => exact .respond (.inr ⟨hp, .inl hk⟩)
    | .decode =>
      by_cases hs : r.srcUsedUp = true
      · simp only [hs, if_true]
        exact .respond (.inr ⟨hp, .inr ((Run.srcUsedUp_iff r).1 hs)⟩)
      · simp only [hs]
        rw [Run.srcUsedUp_iff] at hs
        exact .refill hp hk (by omega)

/-- A micro-step of an unfaulted machine whose lookup finds a word answers a next state. -/
theorem microStep_progress (s : State) (c : Coding) (r : Run) (w : PtrWord c.targetW) (hc : s.coding = some c)
    (hr : s.run = some r) (hf : s.fault = false) (hl : c.tblRead s.treeIndex (s.select c) = some w) : ∃ t, microStep s = .next t := by
  match hp : r.phase with
  | .dstFull => exact ⟨_, microStep_dstFull s r hr hp⟩
  | .needInput => exact ⟨_, microStep_needInput s r hr hp⟩
  | .extract =>
    rw [microStep_extract s r hr hp, extractStep]
    by_cases hd : s.dstFull r = true
    · exact ⟨_, if_pos hd⟩
    rw [if_neg hd]
    have he : s.extraction = some (c, r) :=
      (s.extraction_eq_some c r).2 ⟨hc, hr, hf, hp, by rw [State.dstFull_iff] at hd; omega⟩
    have taken : ∀ n dispatch, ∃ t, takePointer n dispatch s = .next t := fun n dispatch => by
      by_cases hn : s.heldCount < n
      · exact ⟨_, takePointer_stall n dispatch s c r he hn⟩
      · exact ⟨_, takePointer_taken n dispatch s c r he (by omega)⟩
    simp only [s.lookup_eq c hc, hl, Option.map_some, runPointer_decodePtr]
    rcases kind_cases (ptrKind w) with hk | hk | hk | hk
    · rw [decodePtr_descend w hk, exec_descend_eq]; exact taken _ _
    · rw [decodePtr_ret w hk, exec_ret_eq]; exact taken _ _
    · rw [decodePtr_invalid0 w hk, exec_invalid0_eq]
      exact taken _ _
    · rw [decodePtr_invalid3 w hk, exec_invalid3_eq]
      exact taken _ _

end Sys2Proof.Machine
end

