-- ==== Sys2Proof/Laws/Invariant.lean ====
section
/-! SUPPORT. A micro-step of a machine that meets the invariant answers a next state, keeps the invariant and lowers the
work left, so a command ends within its work (41 R138, 42 R163). -/

namespace Sys2Proof.Machine

/-- The invariant looks only at these fields. -/
theorem State.Inv_congr (s t : State) (hs : s.Inv) (hc : t.coding = s.coding) (hi : t.treeIndex = s.treeIndex)
    (hn : t.heldCount = s.heldCount) (hf : t.fault = s.fault) (hcause : t.fcause = s.fcause) (hrun : t.RunOk) :
    t.Inv := by
  obtain ⟨h1, h2, h3, h4, _⟩ := hs
  refine ⟨?_, ?_, ?_, ?_, hrun⟩
  · simpa only [State.CodingOk, hc] using h1
  · simpa only [State.CountOk, hn, hf] using h2
  · simpa only [State.IndexOk, hc, hi, hf] using h3
  · simpa only [State.CauseOk, hc, hf, hcause] using h4

theorem microStep_keeps_inv (s : State) (hs : s.Inv) (hr : s.run ≠ none) :
    ∃ t, microStep s = .next t ∧ t.Inv ∧ t.work < s.work := by
  obtain ⟨r, hr⟩ := Option.ne_none_iff_exists'.1 hr
  have hs' := hs
  obtain ⟨hcoding, hcount, hindex, hcause, hrun⟩ := hs'
  obtain ⟨hsome, hf, hdst, hsrc, hstalled, hfull⟩ := hrun r hr
  obtain ⟨c, hc⟩ := Option.isSome_iff_exists.1 hsome
  obtain ⟨hlookup, hok⟩ := s.lookup_of_inv c hs hc hf
  obtain ⟨hstart, _, _, hshift⟩ := c.WF2_of_wf (hcoding c hc)
  obtain ⟨hlow, hhigh⟩ := hindex c hc hf
  have h32 := hcount hf
  obtain ⟨hbits, hdescend, _⟩ := (c.pointerOk_iff _ _).1 hok
  obtain ⟨t, ht⟩ := microStep_progress s c r _ hc hr hf hlookup
  refine ⟨t, ht, ?_⟩
  cases microStep_inversion s c r hc hr t ht with
  | full hp hd =>
    refine ⟨s.Inv_congr _ hs rfl rfl rfl rfl rfl ?_, by simp [State.work, hr, hp, Phase.weight]⟩
    intro r' hr'
    simp [hr] at hr'
    subst hr'
    simp [hsome, hf, hdst, hsrc]
    omega
  | stall hp hd w hl hn =>
    rw [hlookup] at hl
    cases hl
    refine ⟨s.Inv_congr _ hs rfl rfl rfl rfl rfl ?_, by simp [State.work, hr, hp, Phase.weight]⟩
    intro r' hr'
    simp [hr] at hr'
    subst hr'
    simp [hsome, hf, hdst, hsrc, hd]
    omega
  | descend hp hd w hl hn hk =>
    rw [hlookup] at hl
    cases hl
    obtain ⟨h0, h1, hone⟩ := hdescend _ _ (decodePtr_descend _ hk)
    rw [Int.toNat_of_nonneg hlow] at h0 h1
    refine ⟨⟨hcoding, fun _ => by simp; omega, ?_, hcause, ?_⟩, ?_⟩
    · intro c' hc' _
      obtain rfl := Option.some.inj (hc'.symm.trans hc)
      exact ⟨h0, h1⟩
    · intro r' hr'
      simp [hr] at hr'
      subst hr'
      simp [hsome, hf, hdst, hsrc, hp]
    · simp only [State.work, State.moveTo_run, State.consume_run, hr, State.moveTo_heldCount,
        State.consume_heldCount, State.moveTo_dst, State.consume_dst]
      omega
  | ret hp hd w hl hn hk =>
    refine ⟨⟨hcoding, fun _ => by simp; omega, ?_, hcause, ?_⟩, ?_⟩
    · intro c' hc' _
      obtain rfl := Option.some.inj (hc'.symm.trans hc)
      simp
      omega
    · intro r' hr'
      simp [hr] at hr'
      subst hr'
      simp [hsome, hf, hsrc, hp]
      omega
    · simp only [State.work, State.moveTo_run, State.emit_run, State.consume_run, hr, State.moveTo_heldCount,
        State.emit_heldCount, State.consume_heldCount, State.moveTo_dst, State.emit_dst, State.consume_dst,
        List.length_append, List.length_cons, List.length_nil]
      omega
  | corrupt hp hd w hl hn hk =>
    refine ⟨⟨hcoding, fun h => by simp at h, fun _ _ h => by simp at h, ?_, fun _ h => by simp at h⟩, ?_⟩
    · simp [State.CauseOk, FaultCause.code, hsome]
    · simp only [State.work, State.raiseCodingCorrupt_run, hr, hp, Phase.weight]
      omega
  | respond hp =>
    refine ⟨s.Inv_congr _ hs rfl rfl rfl rfl rfl (fun _ h => by simp at h), ?_⟩
    simp only [State.work, State.respond_run, hr]
    rcases hp with hp | ⟨hp, _⟩ <;> simp [hp, Phase.weight]
  | refill hp hk hlt =>
    obtain ⟨n, hb, hn, e, _⟩ := State.refillAll_spec (r.src.drop r.nSrc) s
    obtain ⟨h24, hroom⟩ := hstalled hp
    rw [List.length_drop] at hn
    have hone : 1 ≤ n := by omega
    rw [e, hr]
    refine ⟨⟨hcoding, fun _ => by simp; omega, hindex, hcause, ?_⟩, ?_⟩
    · intro r' hr'
      simp at hr'
      subst hr'
      simp [hsome, hf, hdst]
      omega
    · simp only [State.work, State.setPhase_run, Option.map_some, hr, State.setPhase_heldCount, State.setPhase_dst,
        Run.inPhase_src, Run.inPhase_nSrc, Run.inPhase_dstCap, Run.inPhase_phase, hp, Phase.weight]
      omega

/-- A command begun on a constructed, unfaulted machine that meets the invariant. -/
theorem State.startRun_inv (s : State) (hs : s.Inv) (c : Coding) (hc : s.coding = some c) (hf : s.fault = false)
    (kind : RunKind) (dstCap : Nat) (src : List Byte) : (s.startRun kind dstCap src).Inv := by
  refine s.Inv_congr _ hs rfl rfl rfl rfl rfl ?_
  intro r hr
  simp at hr
  subst hr
  simp [hc, hf]

/-- It ends, between commands, with the invariant. -/
theorem runToEnd_inv (s : State) (hs : s.Inv) (c : Coding) (hc : s.coding = some c) (hf : s.fault = false)
    (kind : RunKind) (dstCap : Nat) (src : List Byte) :
    ∃ t, runToEnd (s.startRun kind dstCap src) = .next t ∧ t.Inv ∧ t.run = none :=
  runCommand_ends State.Inv State.work (fun u hu hr => microStep_keeps_inv u hu hr) _ _
    (s.startRun_inv hs c hc hf kind dstCap src) (le_refl _)

end Sys2Proof.Machine
end

