-- ==== Sys2Proof/Laws/PerInstr.lean ====
section
/-! SUPPORT. What is said of every instruction as syntax, one lemma a constructor. -/

namespace Sys2Proof.Laws

/-- The fixed bits of a row of the opcode table, of a pointer word or of a command code (30 R94). -/
def rowMask : Instr → Nat
  | .descend _ _ => 0xC0
  | .ret _ _ => 0xC0
  | .invalid0 _ => 0xC0
  | .invalid3 _ => 0xC0
  | .new _ => 0x3
  | .decode _ _ => 0x3
  | .flush _ => 0x3
  | .aligned => 0x3

/-- What those bits hold (30 R94). -/
def rowMatch : Instr → Nat
  | .descend _ _ => 0x40
  | .ret _ _ => 0x80
  | .invalid0 _ => 0x00
  | .invalid3 _ => 0xC0
  | .new _ => 0x0
  | .decode _ _ => 0x1
  | .flush _ => 0x2
  | .aligned => 0x3

/-- The code bits of an encoded item. -/
def codeBits {tw : Nat} : Encoded tw → Nat
  | .ptr w => w.toNat
  | .cmd q => q.op.toNat

/-- At every `TARGET_W` the encoding of an instruction carries the fixed bits of its row. -/
def EncodesInItsRow.Statement (i : Instr) : Prop :=
  ∀ tw : Nat, codeBits (encodeAt tw i) &&& rowMask i = rowMatch i

/-- The tag of a packed pointer word is where the table's mask looks. -/
theorem packPtr_masked {tw : Nat} (target : BitVec tw) (kind : BitVec 2) (n : Nat) :
    (packPtr target kind n).toNat &&& 0xC0 = kind.toNat * 64 := by
  have h := kind.isLt
  have masked : ∀ x : Nat, x &&& 0xC0 = x / 64 % 4 * 64 := by
    intro x
    have e : (0xC0 : Nat) = (2 ^ 2 - 1) <<< 6 := rfl
    rw [e]
    apply Nat.eq_of_testBit_eq
    intro i
    rw [Nat.testBit_and, Nat.testBit_shiftLeft, Nat.testBit_two_pow_sub_one,
      show x / 64 % 4 * 64 = (x / 2 ^ 6 % 2 ^ 2) <<< 6 from by rw [Nat.shiftLeft_eq]; norm_num,
      Nat.testBit_shiftLeft, Nat.testBit_mod_two_pow, Nat.testBit_div_two_pow]
    by_cases hi : 6 ≤ i
    · simp [hi, Bool.and_comm]
    · simp [hi]
  rw [packPtr_toNat, masked]
  omega

theorem EncodesInItsRow.descend (n : Nat) (o : Int) : Statement (.descend n o) := fun _ => packPtr_masked _ _ _
theorem EncodesInItsRow.ret (n : Nat) (b : Byte) : Statement (.ret n b) := fun _ => packPtr_masked _ _ _
theorem EncodesInItsRow.invalid0 (n : Nat) : Statement (.invalid0 n) := fun _ => packPtr_masked _ _ _
theorem EncodesInItsRow.invalid3 (n : Nat) : Statement (.invalid3 n) := fun _ => packPtr_masked _ _ _
theorem EncodesInItsRow.new (c : Coding) : Statement (.new c) := by
  simp [Statement, codeBits, encodeAt, rowMask, rowMatch, Request.bare]
theorem EncodesInItsRow.decode (n : Nat) (src : List Byte) : Statement (.decode n src) := by
  simp [Statement, codeBits, encodeAt, rowMask, rowMatch, Request.bare]
theorem EncodesInItsRow.flush (n : Nat) : Statement (.flush n) := by
  simp [Statement, codeBits, encodeAt, rowMask, rowMatch, Request.bare]
theorem EncodesInItsRow.aligned : Statement .aligned := by
  simp [Statement, codeBits, encodeAt, rowMask, rowMatch, Request.bare]

end Sys2Proof.Laws
end

