-- ==== Sys2Proof/Tests/Slice0.lean ====
section
/-! SUPPORT. The model's own tests, each expected result taken from the spec's tables and vectors (95), and one witness
for the hypotheses of each statement. -/

namespace Sys2Proof.Tests

open Sys2Proof.Machine

/-! ### The Codings of 95 part 1 and states built on them -/

def ex1 : Coding :=
  Coding.ofWritten 16 4 0 [[.leaf [false] 0x41#8, .leaf [true, false] 0x42#8, .void [true, true]]]

/-- EX2 laid out for any `TARGET_W`; its offset and symbols fit the least. -/
def ex2At (targetW : Nat) : Coding :=
  Coding.ofWritten targetW 2 1
    [[.leaf [false] 0x63#8, .leaf [true, false] 0x64#8, .leaf [true, true] 0x65#8],
     [.leaf [false] 0x61#8, .leaf [true, false] 0x62#8, .link [true, true] (-1)]]

def ex2 : Coding := ex2At 16

def ex3 : Coding :=
  Coding.ofWritten 16 1 0
    [[.leaf [false] 0x78#8, .link [true] 1], [.leaf [false] 0x79#8, .leaf [true] 0x7A#8]]

def ex4 : Coding := Coding.ofWritten 16 1 0 [[.leaf [] 0x73#8]]

/-- A Decoder right after `NEW`. -/
def fresh (c : Coding) : State := (State.reset.construct c).respond (.ok false 0 0)

/-- A Decoder between commands in the state `(treeIndex, heldBits, heldCount)` of 95 part 3. -/
def held (c : Coding) (treeIndex : Int) (heldBits : AccWord) (heldCount : Nat) : State :=
  { State.reset with coding := some c, treeIndex := treeIndex, heldBits := heldBits, heldCount := heldCount }

/-- The same inside a DECODE with room for `dstCap` bytes. -/
def walking (c : Coding) (treeIndex : Int) (heldBits : AccWord) (heldCount dstCap : Nat) (src : List Byte)
    (phase : Phase) : State :=
  { held c treeIndex heldBits heldCount with
    run := some { kind := .decode, dstCap := dstCap, src := src, nSrc := 0, phase := phase } }

/-- The command of `walking`. -/
def aRun (dstCap : Nat) (src : List Byte) (phase : Phase) : Run :=
  { kind := .decode, dstCap := dstCap, src := src, nSrc := 0, phase := phase }

/-- A faulted Decoder between commands. -/
def faulted (c : Coding) : State := { held c 0 0#32 0 with fault := true, fcause := .codingCorrupt }

/-- The machine after an instruction. -/
def after (i : Instr) (s : State) : State :=
  match exec i s with
  | .next t => t
  | .fault _ => s
  | .refused _ => s

/-- `(treeIndex, heldBits, heldCount)`, and what came out. -/
def seen (s : State) : Int × AccWord × Nat × List Byte × Option Response :=
  (s.treeIndex, s.heldBits, s.heldCount, s.dst, s.response)

/-! ### Well-formedness: one ill-formed term for each check -/

/-- `consumeBits` has six bits (30 R83). -/
theorem test_wf_consume_bits : (Instr.ret 63 0#8).wellFormed = true ∧ (Instr.ret 64 0#8).wellFormed = false ∧
    (Instr.descend 64 0).wellFormed = false ∧ (Instr.invalid0 64).wellFormed = false ∧
    (Instr.invalid3 64).wellFormed = false := by decide

/-- The offset has `TARGET_W` bits in two's complement (30 R84). -/
theorem test_wf_offset : (Instr.descend 1 32767).wellFormed = true ∧ (Instr.descend 1 32768).wellFormed = false ∧
    (Instr.descend 1 (-32768)).wellFormed = true ∧ (Instr.descend 1 (-32769)).wellFormed = false := by decide

/-- A Coding in a form that is not the canonical one: out of order, a listed zero word, a cell past the table. -/
theorem test_wf_canonical :
    (Instr.new { Coding.blank with table := [(1, 1#24), (0, 1#24)] }).wellFormed = false ∧
    (Instr.new { Coding.blank with table := [(0, 0#24)] }).wellFormed = false ∧
    (Instr.new { Coding.blank with table := [(2, 1#24)] }).wellFormed = false ∧
    (Instr.new Coding.blank).wellFormed = true := by decide

/-- `TARGET_W` is at least 8 (00 R8), and a Coding is encoded at its own. -/
theorem test_wf_target_width : (ex2At 8).wf = true ∧ (ex2At 24).wf = true ∧ (Coding.blankAt 7).wf = false ∧
    (Instr.new (ex2At 8)).wellFormedAt 8 = true ∧ (Instr.new (ex2At 8)).wellFormedAt 16 = false := by decide

/-- The Codings of 95 part 1 pass the check of 20 R56. -/
theorem test_wf_examples : ex1.wf = true ∧ ex2.wf = true ∧ ex3.wf = true ∧ ex4.wf = true := by decide

/-- WF1: a pointer that asks for more than `treeShift` bits. -/
theorem test_wf1 : ({ ex4 with table := [(0, 0x007382#24)] } : Coding).wf = false := by decide
/-- WF2: the root outside the table, no node, `treeShift` 0 and 26. -/
theorem test_wf2 : ({ ex4 with treeIndexStart := 1 } : Coding).wf = false ∧
    ({ Coding.blank with nodeCount := 0 } : Coding).wf = false ∧
    ({ Coding.blank with treeShift := 0 } : Coding).wf = false ∧
    ({ Coding.blank with treeShift := 26 } : Coding).wf = false ∧
    ({ Coding.blank with treeShift := 25 } : Coding).wf = true := by decide
/-- WF3: a link to before the first node and one to after the last. -/
theorem test_wf3 : ({ ex4 with table := [(0, 0xFFFF41#24)] } : Coding).wf = false ∧
    ({ ex4 with table := [(0, 0x000141#24)] } : Coding).wf = false := by decide
/-- WF4: a link that consumes nothing. -/
theorem test_wf4 : ({ ex4 with table := [(0, 0x000040#24)] } : Coding).wf = false := by decide
/-- WF5: a Return with a bit set above its symbol. -/
theorem test_wf5 : ({ ex4 with table := [(0, 0x010080#24)] } : Coding).wf = false := by decide

/-! ### Words written out from the encodings of 30 R81 to R87: `target`, `kind`, `consumeBits` -/

theorem test_decode_descend :
    decodePtr (0b1111111111111111#16 ++ 0b01#2 ++ 0b000010#6) = .descend 2 (-1) := by decide
theorem test_decode_descend_positive :
    decodePtr (0b0111111111111111#16 ++ 0b01#2 ++ 0b011001#6) = .descend 25 32767 := by decide
theorem test_decode_return :
    decodePtr (0b0000000001000001#16 ++ 0b10#2 ++ 0b000001#6) = .ret 1 0x41#8 := by decide
/-- The reserved bits of a Return are ignored (30 R85). -/
theorem test_decode_return_reserved :
    decodePtr (0b1111111101000001#16 ++ 0b10#2 ++ 0b000001#6) = .ret 1 0x41#8 := by decide
theorem test_decode_invalid0 :
    decodePtr (0b0000000000000000#16 ++ 0b00#2 ++ 0b000010#6) = .invalid0 2 := by decide
theorem test_decode_invalid3 :
    decodePtr (0b0000000000000000#16 ++ 0b11#2 ++ 0b000011#6) = .invalid3 3 := by decide
theorem test_decode_new : decodeCmd { op := 0b00#2, coding := ex1, dstCap := 3, src := [0x20#8] } = .new ex1 := by
  decide
theorem test_decode_decode :
    decodeCmd { op := 0b01#2, coding := ex1, dstCap := 3, src := [0x20#8] } = .decode 3 [0x20#8] := by decide
theorem test_decode_flush :
    decodeCmd { op := 0b10#2, coding := ex1, dstCap := 3, src := [0x20#8] } = .flush 3 := by decide
theorem test_decode_aligned :
    decodeCmd { op := 0b11#2, coding := ex1, dstCap := 3, src := [0x20#8] } = .aligned := by decide
/-- Lengths that are no format and bits above a command's two. -/
theorem test_decode_refuses : decodeBits 15 0 = .error .noSuchLength ∧ decodeBits 8 4 = .error .bitsAboveTheFormat ∧
    decodeBits 24 (2 ^ 24) = .error .bitsAboveTheFormat := by exact ⟨rfl, rfl, rfl⟩
/-- The other way, on the words of 95 part 3.1. -/
theorem test_encode : encode (.descend 2 (-1)) = .ptr 0xFFFF42#24 ∧ encode (.ret 1 0x41#8) = .ptr 0x004181#24 ∧
    encode (.invalid0 2) = .ptr 0x000002#24 ∧ encode (.invalid3 3) = .ptr 0x0000C3#24 := by decide
/-- The table of EX2, as 95 part 4 P2 lists it. -/
theorem test_table_ex2 : ex2.table = [(0, 0x006381#24), (1, 0x006381#24), (2, 0x006482#24), (3, 0x006582#24),
    (4, 0x006181#24), (5, 0x006181#24), (6, 0x006282#24), (7, 0xFFFF42#24)] := by rfl
/-- Words at the least `TARGET_W` and at a wider one: `target` is what lies above bit 7 (30 R81, R84, R85). -/
theorem test_decode_other_widths :
    decodePtr (tw := 8) (0b11111111#8 ++ 0b01#2 ++ 0b000010#6) = .descend 2 (-1) ∧
    decodePtr (tw := 8) (0b11111111#8 ++ 0b10#2 ++ 0b000010#6) = .ret 2 0xFF#8 ∧
    decodePtr (tw := 20) (0b00010000000000000000#20 ++ 0b01#2 ++ 0b000010#6) = .descend 2 65536 := by decide

/-! ### One step of each instruction -/

/-- 95 part 3.5: EX2, node 1, `0b11`, and V6's counts: 16 held bits before, 14 after. -/
theorem test_descend : seen (after (.descend 2 (-1)) (walking ex2 1 0xFCB8#32 16 10 [] .extract)) =
    (0, 0xFCB8#32, 14, [], none) := by decide
/-- 95 part 3.4: `DESCEND 25, +1` with 32 bits held. -/
theorem test_descend_longest : (after (.descend 25 1) (walking ex3 0 0#32 32 1 [] .extract)).heldCount = 7 := by decide
/-- 95 part 3.5: EX2, node 0, `0b11`: back to the root, which is node 1; V6's counts. -/
theorem test_return : seen (after (.ret 2 0x65#8) (walking ex2 0 0xFCB8#32 14 10 [] .extract)) =
    (1, 0xFCB8#32, 12, [0x65#8], none) := by decide
/-- 95 part 3.4: `RETURN 2` with one bit held stalls. -/
theorem test_return_stalls : exec (.ret 2 0x42#8) (walking ex1 0 1#32 1 5 [] .extract) =
    .next (walking ex1 0 1#32 1 5 [] .needInput) := by rfl
/-- 95 part 3.4 and V4: `INVALID 00, 2` with six bits held faults, with the selector of the lookup. -/
theorem test_invalid0 : (after (.invalid0 2) (walking ex1 0 0x30#32 6 4 [] .extract)).fault = true ∧
    (after (.invalid0 2) (walking ex1 0 0x30#32 6 4 [] .extract)).corruptInfo =
      some { treeIndex := 0, sel := 12, kind := 0#2 } := by decide
/-- 95 part 3.4: with one bit held it stalls, and there is no fault. -/
theorem test_invalid0_stalls : (after (.invalid0 2) (walking ex1 0 1#32 1 4 [] .extract)).fault = false := by decide
/-- 60 R190 and R196: an invalid kind `0b11` that passes STALLCHK. -/
theorem test_invalid3 : (after (.invalid3 3) (walking ex1 0 0xE0#32 8 4 [] .extract)).response = some .fault ∧
    (after (.invalid3 3) (walking ex1 0 0xE0#32 8 4 [] .extract)).fcause.code = 1 := by decide
/-- 95 part 3.4: `INVALID 11, 3` with one bit held stalls. -/
theorem test_invalid3_stalls : (after (.invalid3 3) (walking ex1 0 1#32 1 4 [] .extract)).fault = false := by decide
/-- V0 and V6: `NEW` leaves the walker at the root. -/
theorem test_new : seen (after (.new ex2) State.reset) = (1, 0#32, 0, [], some (.ok false 0 0)) := by decide
/-- V4: `NEW` clears the fault. -/
theorem test_new_clears : (after (.new ex1) (faulted ex1)).fault = false := by decide
/-- V1, the source's scenario corrected. -/
theorem test_decode : seen (after (.decode 3 [0x20#8]) (fresh ex1)) =
    (0, 0x20#32, 4, [0x41#8, 0x41#8, 0x42#8], some (.ok false 3 1)) := by decide
/-- V6 on EX2 laid out for `TARGET_W` 8: the abstract pointers, and so the run, are those of the default. -/
theorem test_decode_width8 : seen (after (.decode 10 [0xFC#8, 0xB8#8]) (fresh (ex2At 8))) =
    (1, 0xFCB8#32, 0, [0x65#8, 0x63#8, 0x61#8, 0x62#8, 0x64#8, 0x61#8, 0x61#8], some (.ok false 7 2)) := by decide
/-- V4: the fault, after two bytes. -/
theorem test_decode_faults : (after (.decode 4 [0x30#8]) (fresh ex1)).response = some .fault ∧
    (after (.decode 4 [0x30#8]) (fresh ex1)).dst = [0x41#8, 0x41#8] := by decide
/-- V14's FLUSH: held bits come out, the whole word is not zero. -/
theorem test_flush : seen (after (.flush 8) (held ex3 0 0xB0#32 2)) =
    (0, 0xB0#32, 0, [0x78#8, 0x78#8], some (.ok false 2 0)) := by decide
/-- V0: right after `NEW`, finished. -/
theorem test_flush_fresh : seen (after (.flush 2) (fresh ex1)) = (0, 0#32, 0, [], some (.ok true 0 0)) := by decide
/-- V1 and V15: stale bits count. -/
theorem test_aligned_stale : (after .aligned (held ex1 0 0xAAAAAAAA#32 0)).response = some (.ok false 0 0) := by decide
/-- V12a: held zero bits do not. -/
theorem test_aligned_held : (after .aligned (held ex1 0 0#32 5)).response = some (.ok true 0 0) := by decide

/-- The first instruction after reset, placed from outside (log entry 7). -/
theorem test_step_from_reset : step (State.reset.withFetchWord 24 0x004181) =
      exec (.ret 1 0x41#8) (State.reset.withFetchWord 24 0x004181) ∧
    (match step (State.reset.withFetchWord 8 3) with
      | .next t => t.response
      | .fault _ => none
      | .refused _ => none) = some (.ok true 0 0) := by exact ⟨rfl, rfl⟩

/-! ### Witnesses: hypotheses of the statements that something meets -/

/-- A Decoder between commands on a checked Coding meets the invariant. -/
theorem held_inv (c : Coding) (treeIndex : Int) (heldBits : AccWord) (heldCount : Nat) (hc : c.wf = true)
    (h32 : heldCount ≤ 32) (hi : 0 ≤ treeIndex ∧ treeIndex < (c.nodeCount : Int)) :
    (held c treeIndex heldBits heldCount).Inv := by
  refine ⟨fun c' h => ?_, fun _ => h32, fun c' h _ => ?_, ⟨fun _ => rfl, fun h => by cases h⟩, fun r h => by cases h⟩
  · cases h; exact hc
  · cases h; exact hi

/-- So does one inside a DECODE. -/
theorem walking_inv (c : Coding) (treeIndex : Int) (heldBits : AccWord) (heldCount dstCap : Nat) (src : List Byte)
    (phase : Phase) (hc : c.wf = true) (h32 : heldCount ≤ 32) (hi : 0 ≤ treeIndex ∧ treeIndex < (c.nodeCount : Int))
    (hp : (phase = .needInput → heldCount ≤ 24 ∧ 0 < dstCap) ∧ (phase = .dstFull → 0 = dstCap)) :
    (walking c treeIndex heldBits heldCount dstCap src phase).Inv := by
  obtain ⟨h1, h2, h3, h4, _⟩ := held_inv c treeIndex heldBits heldCount hc h32 hi
  refine ⟨h1, h2, h3, h4, fun r h => ?_⟩
  cases h
  exact ⟨rfl, rfl, Nat.zero_le _, Nat.zero_le _, hp.1, hp.2⟩

/-- EX3 has the replication property. -/
theorem ex3_replicated : ex3.Replicated := by
  have all : ∀ i < ex3.nodeCount, ∀ s < ex3.slots, ∀ s' < ex3.slots,
      s / 2 ^ (ex3.treeShift - ptrConsumeBits (ex3.word i s)) =
        s' / 2 ^ (ex3.treeShift - ptrConsumeBits (ex3.word i s)) →
      ex3.pointer i s = ex3.pointer i s' := by decide
  exact fun i s s' hi hs hs' h => all i hi s hs s' hs' h

theorem witness_PointerEncodeDecodeAgree :
    8 ≤ 8 ∧ (0x0042#16 : BitVec (8 + 8)).extractLsb' 6 2 = 0b01#2 ∧ (0xFF82#16).extractLsb' 6 2 = 0b10#2 ∧
    (0x0002#16).extractLsb' 6 2 = 0b00#2 ∧ (0x00C2#16).extractLsb' 6 2 = 0b11#2 ∧
    (Instr.descend 63 (-128)).isPointer = true ∧ (Instr.descend 63 (-128)).wellFormedAt 8 = true ∧
    (Instr.descend 63 127).wellFormedAt 8 = true ∧ (Instr.ret 63 255#8).wellFormedAt 8 = true ∧
    ptrReserved (tw := 16) 0x00FF82#24 = 0 ∧ ptrTarget (tw := 8) 0x00C2#16 = 0#8 := by decide

theorem witness_TableRowsByMaskAndMatch : 8 ≤ 8 ∧ 8 ≤ 16 := by decide

theorem witness_InstructionEncodeDecodeAgree :
    8 ≤ 8 ∧ (Instr.new (ex2At 8)).wellFormedAt 8 = true ∧ (Instr.descend 63 (-128)).wellFormedAt 8 = true ∧ 8 ≤ 16 ∧
    (Instr.descend 63 (-32768)).wellFormed = true ∧ (Instr.ret 63 255#8).wellFormed = true ∧
    (Instr.invalid0 63).wellFormed = true ∧ (Instr.invalid3 63).wellFormed = true ∧ (Instr.new ex2).wellFormed = true ∧
    (Instr.decode 3 [0x20#8]).wellFormed = true ∧ (Instr.flush 3).wellFormed = true ∧
    Instr.aligned.wellFormed = true := by decide

theorem witness_PseudoInstructionsFillPrefixSlots :
    [true, true].length ≤ 2 ∧ [true].length ≤ 4 ∧ ([] : List Bool).length ≤ 1 := by decide

theorem witness_RefillShiftsOneByteIn :
    (walking ex1 0 0#32 0 3 [0x20#8] .extract).run = some (aRun 3 [0x20#8] .extract) := by rfl

theorem witness_AccumulatorDropsNoValidBit :
    (held ex1 0 0xDEADBEEF#32 24).hasRoom = true ∧ (held ex1 0 0xDEADBEEF#32 32).heldCount ≤ 32 ∧
    (held ex1 0 0xDEADBEEF#32 32).stalls 32 = false ∧ (held ex1 0 0xDEADBEEF#32 0).stalls 0 = false := by decide

theorem witness_RefillAllIngestsWhatFits :
    (held ex1 0 0#32 0).heldCount ≤ 32 ∧ (held ex1 0 0#32 32).heldCount ≤ 32 := by decide

/-- Both clauses at `T = heldCount` and just past it. -/
theorem witness_SelectorIsTopOfWindow :
    (1 ≤ 25 ∧ 25 ≤ 25 ∧ 32 ≤ 32 ∧ 25 ≤ 32) ∧ (1 ≤ 1 ∧ 1 ≤ 25 ∧ 1 ≤ 32 ∧ 1 ≤ 1) ∧ (25 ≤ 25 ∧ 24 ≤ 32 ∧ 24 < 25) := by
  decide

theorem witness_SelectorIgnoresStaleBits :
    4 ≤ 25 ∧ 4 ≤ 32 ∧ (0x20#32).toNat % 2 ^ 4 = (0xFFFFFFF0#32).toNat % 2 ^ 4 := by decide

/-- EX3, node 1: one bit held, a one, then the same bit followed by seven others. -/
theorem witness_SpeculativeLookupIsSafe :
    ex3.wf = true ∧ ex3.Replicated ∧ 1 < ex3.nodeCount ∧ 1 ≤ 8 ∧ 8 ≤ 32 ∧
    (0xB0#32).toNat % 2 ^ 8 / 2 ^ (8 - 1) = (1#32).toNat % 2 ^ 1 ∧
    ptrConsumeBits (ex3.word 1 (selector ex3.treeShift 1#32 1)) ≤ 1 :=
  ⟨by decide, ex3_replicated, by decide, by decide, by decide, by decide, by decide⟩

/-- An iteration under way, one bit short. -/
theorem witness_StalledPointerChangesNothing :
    (walking ex1 0 1#32 1 5 [] .extract).ExtractingWith ex1 (aRun 5 [] .extract) ∧
    (walking ex1 0 1#32 1 5 [] .extract).heldCount < 2 := by exact ⟨rfl, by decide⟩

/-- The bits asked for are just those held. -/
theorem witness_DescendMovesByOffset :
    (walking ex2 1 3#32 2 1 [] .extract).ExtractingWith ex2 (aRun 1 [] .extract) ∧
    2 ≤ (walking ex2 1 3#32 2 1 [] .extract).heldCount := by exact ⟨rfl, by decide⟩

theorem witness_ReturnWritesSymbolAndGoesToRoot :
    (walking ex4 0 0#32 0 1 [] .extract).ExtractingWith ex4 (aRun 1 [] .extract) ∧
    0 ≤ (walking ex4 0 0#32 0 1 [] .extract).heldCount := by exact ⟨rfl, by decide⟩

theorem witness_InvalidKindRaisesCodingCorrupt :
    (walking ex1 0 0x30#32 2 4 [] .extract).ExtractingWith ex1 (aRun 4 [] .extract) ∧
    2 ≤ (walking ex1 0 0x30#32 2 4 [] .extract).heldCount := by exact ⟨rfl, by decide⟩

theorem witness_PointerOutsideExtractRefused :
    (Instr.descend 1 0).isPointer = true ∧ State.reset.extraction = none ∧ (fresh ex1).extraction = none ∧
    (walking ex1 0 0#32 8 0 [] .extract).extraction = none := by exact ⟨rfl, rfl, rfl, rfl⟩

theorem witness_PointerWordsFrame :
    (Instr.ret 2 0x42#8).isPointer = true ∧ exec (.ret 2 0x42#8) (walking ex1 0 1#32 1 5 [] .extract) =
      .next (walking ex1 0 1#32 1 5 [] .needInput) ∧ (walking ex1 0 1#32 1 5 [] .needInput).fault = false :=
  ⟨rfl, rfl, rfl⟩

theorem witness_StopsInTheOrderOfPriority :
    ((walking ex1 0 0x30#32 4 0 [] .extract).run = some (aRun 0 [] .extract) ∧
      (aRun 0 [] .extract).phase = .extract ∧ (aRun 0 [] .extract).dstCap ≤ (walking ex1 0 0x30#32 4 0 [] .extract).dst.length) ∧
    ((walking ex1 0 1#32 1 4 [] .extract).fault = false ∧
      exec (.invalid0 2) (walking ex1 0 1#32 1 4 [] .extract) = .next (walking ex1 0 1#32 1 4 [] .needInput)) ∧
    ((walking ex1 0 0#32 0 0 [] .dstFull).run = some (aRun 0 [] .dstFull) ∧ (aRun 0 [] .dstFull).phase = .dstFull) :=
  ⟨⟨rfl, rfl, by decide⟩, ⟨rfl, rfl⟩, ⟨rfl, rfl⟩⟩

theorem witness_ExtractEndsWithinItsBound :
    (walking ex2 1 0xFCB8#32 16 10 [] .extract).Inv ∧
    (walking ex2 1 0xFCB8#32 16 10 [] .extract).run = some (aRun 10 [] .extract) ∧
    (aRun 10 [] .extract).phase = .extract :=
  ⟨walking_inv _ _ _ _ _ _ _ (by decide) (by decide) (by decide) (by decide), rfl, rfl⟩

/-- With as many bits held as a stall allows. -/
theorem witness_RefillPhaseIngestsAByte :
    (walking ex1 0 0#32 24 10 [0x20#8] .needInput).Inv ∧
    (walking ex1 0 0#32 24 10 [0x20#8] .needInput).run = some (aRun 10 [0x20#8] .needInput) ∧
    (aRun 10 [0x20#8] .needInput).kind = .decode ∧ (aRun 10 [0x20#8] .needInput).phase = .needInput ∧
    (aRun 10 [0x20#8] .needInput).nSrc < (aRun 10 [0x20#8] .needInput).src.length :=
  ⟨walking_inv _ _ _ _ _ _ _ (by decide) (by decide) (by decide) (by decide), rfl, rfl, rfl, by decide⟩

theorem witness_NewConstructsTheDecoder : State.reset.run = none ∧ ex1.wf = true := by decide

theorem witness_NewRefusesIllFormedCodings :
    ex2.canonical = true ∧ ({ ex4 with treeIndexStart := 1 } : Coding).canonical = true ∧ State.reset.run = none ∧
    ({ ex4 with treeIndexStart := 1 } : Coding).wf = false := by decide

theorem witness_DecodeCompletesWithItsCounts :
    (held ex2 0 3#32 0).Inv ∧ (held ex2 0 3#32 0).ReadyFor ex2 ∧
    (after (.decode 7 [0x03#8]) (fresh ex2)).dst.length < 7 :=
  ⟨held_inv _ _ _ _ (by decide) (by decide) (by decide), ⟨rfl, rfl, rfl⟩, by decide⟩

/-- No slot of EX3 is of an invalid kind. -/
theorem witness_ExtractingCommandsCompleteUnfaulted :
    (held ex3 1 1#32 0).Inv ∧ (held ex3 1 1#32 0).ReadyFor ex3 ∧ ex3.NoInvalidKind := by
  refine ⟨held_inv _ _ _ _ (by decide) (by decide) (by decide), ⟨rfl, rfl, rfl⟩, fun i s hi hs => ?_⟩
  have all : ∀ i < ex3.nodeCount, ∀ s < ex3.slots,
      ptrKind (ex3.word i s) = kindDescend ∨
        ptrKind (ex3.word i s) = kindReturn := by decide
  exact all i hi s hs

theorem witness_DecodeWithoutCapacityDoesNothing : (held ex1 0 0x20#32 4).ReadyFor ex1 := ⟨rfl, rfl, rfl⟩

theorem witness_DecodeOfNothingIsFlush :
    (exec (.decode 2 []) (held ex1 0 0#32 5) = .next (after (.decode 2 []) (held ex1 0 0#32 5)) ∧
      (after (.decode 2 []) (held ex1 0 0#32 5)).fault = false) ∧
    (exec (.flush 2) (held ex1 0 0#32 5) = .next (after (.flush 2) (held ex1 0 0#32 5)) ∧
      (after (.flush 2) (held ex1 0 0#32 5)).fault = false) ∧
    (exec (.decode 2 []) (held ex1 0 0x03#32 2) = .next (after (.decode 2 []) (held ex1 0 0x03#32 2)) ∧
      (after (.decode 2 []) (held ex1 0 0x03#32 2)).fault = true) ∧
    (exec (.flush 2) (held ex1 0 0x03#32 2) = .next (after (.flush 2) (held ex1 0 0x03#32 2)) ∧
      (after (.flush 2) (held ex1 0 0x03#32 2)).fault = true) :=
  ⟨⟨rfl, rfl⟩, ⟨rfl, rfl⟩, ⟨rfl, rfl⟩, ⟨rfl, rfl⟩⟩

theorem witness_FlushCompletesWithFinished : (held ex2 1 3#32 2).Inv ∧ (held ex2 1 3#32 2).ReadyFor ex2 :=
  ⟨held_inv _ _ _ _ (by decide) (by decide) (by decide), ⟨rfl, rfl, rfl⟩⟩

/-- EX2 mid-codeword: the first FLUSH stops NeedInput at the inner node (95 part 3.6). -/
theorem witness_SecondFlushWritesNothing :
    exec (.flush 7) (held ex2 1 3#32 2) = .next (after (.flush 7) (held ex2 1 3#32 2)) ∧
    (after (.flush 7) (held ex2 1 3#32 2)).fault = false ∧ (after (.flush 7) (held ex2 1 3#32 2)).dst.length < 7 := by
  exact ⟨rfl, rfl, by decide⟩

theorem witness_CommandsAreTheirSteps : (held ex1 0 0x20#32 4).Inv ∧ (held ex1 0 0x20#32 4).ReadyFor ex1 :=
  ⟨held_inv _ _ _ _ (by decide) (by decide) (by decide), ⟨rfl, rfl, rfl⟩⟩

theorem witness_AlignedTestsTheWholeWord :
    (held ex1 0 0#32 5).ReadyFor ex1 ∧ (held ex1 0 0#32 5).heldBits = 0#32 ∧ (held ex1 0 1#32 0).ReadyFor ex1 ∧
    (held ex1 0 1#32 0).heldBits ≠ 0#32 ∧
    ((faulted ex1).run = none ∧ (faulted ex1).coding = some ex1 ∧ (faulted ex1).fault = true) :=
  ⟨⟨rfl, rfl, rfl⟩, rfl, ⟨rfl, rfl, rfl⟩, by decide, ⟨rfl, rfl, rfl⟩⟩

theorem witness_FaultedAndUnconstructedDecoders :
    ((faulted ex1).run = none ∧ (faulted ex1).coding = some ex1 ∧ (faulted ex1).fault = true) ∧ ex1.wf = true ∧
    (State.reset.run = none ∧ State.reset.coding = none) := ⟨⟨rfl, rfl, rfl⟩, by decide, ⟨rfl, rfl⟩⟩

theorem witness_OverlappingCommandsRefused :
    Instr.aligned.isPointer = false ∧ (walking ex1 0 0#32 0 3 [] .extract).run = some (aRun 3 [] .extract) :=
  ⟨rfl, rfl⟩

/-- Each clause has a Coding: a root slot 0 that stalls, one that emits, one that faults. -/
theorem witness_RightAfterNew :
    exec (.new ex1) State.reset = .next (fresh ex1) ∧
    0 < ptrConsumeBits (ex1.word ex1.treeIndexStart 0) ∧
    exec (.new ex4) State.reset = .next (fresh ex4) ∧ ex4.pointer ex4.treeIndexStart 0 = .ret 0 0x73#8 ∧
    exec (.new Coding.blank) State.reset = .next (fresh Coding.blank) ∧
    Coding.blank.pointer Coding.blank.treeIndexStart 0 = .invalid0 0 :=
  ⟨rfl, by decide, rfl, by decide, rfl, by decide⟩

theorem witness_CommandsFrame :
    exec (.decode 3 [0x20#8]) (fresh ex1) = .next (after (.decode 3 [0x20#8]) (fresh ex1)) ∧
    (after (.decode 3 [0x20#8]) (fresh ex1)).fault = false ∧ (fresh ex1).coding = some ex1 ∧
    exec (.flush 2) (fresh ex1) = .next (after (.flush 2) (fresh ex1)) ∧
    exec .aligned (fresh ex1) = .next (after .aligned (fresh ex1)) := ⟨rfl, rfl, rfl, rfl, rfl⟩

theorem witness_TableIsNeverWritten :
    (∀ c, Instr.flush 2 ≠ .new c) ∧ exec (.flush 2) (fresh ex1) = .next (after (.flush 2) (fresh ex1)) :=
  ⟨(fun _ h => by cases h), rfl⟩

theorem witness_FaultFlagIsSticky :
    exec (.new ex1) (faulted ex1) = .next (after (.new ex1) (faulted ex1)) ∧
    (∃ t, microStep (walking ex1 0 0x30#32 6 4 [] .extract) = .next t ∧
      (walking ex1 0 0x30#32 6 4 [] .extract).fault = false ∧ t.fault = true) ∧
    (∀ c, Instr.aligned ≠ .new c) ∧ exec .aligned (faulted ex1) = .next (after .aligned (faulted ex1)) ∧
    (faulted ex1).fault = true ∧
    (exec (.flush 2) (fresh ex1) = .next (after (.flush 2) (fresh ex1)) ∧ (fresh ex1).fcause.code = 0 ∧
      (after (.flush 2) (fresh ex1)).fault = false) :=
  ⟨rfl, ⟨_, rfl, rfl, rfl⟩, (fun _ h => by cases h), rfl, rfl, ⟨rfl, rfl, rfl⟩⟩

theorem witness_CommandsAreAtomic :
    ({ State.reset with requests := [{ Request.bare 0b00#2 with coding := ex1 }] } : State).run = none ∧
    step { State.reset with requests := [{ Request.bare 0b00#2 with coding := ex1 }] } = .next (fresh ex1) :=
  ⟨rfl, rfl⟩

theorem witness_StepRunsTheWordLookedUp :
    (walking ex2 1 3#32 2 1 [] .extract).ExtractingWith ex2 (aRun 1 [] .extract) ∧
    ex2.tblRead (walking ex2 1 3#32 2 1 [] .extract).treeIndex
      (selector ex2.treeShift (walking ex2 1 3#32 2 1 [] .extract).heldBits
        (walking ex2 1 3#32 2 1 [] .extract).heldCount) = some 0xFFFF42#24 := ⟨rfl, rfl⟩

theorem witness_StepRunsTheNextCommand :
    (State.reset.placeCommand (Request.bare 3#2)).run = none ∧
    (State.reset.placeCommand (Request.bare 3#2)).requests = [Request.bare 3#2] ∧ State.reset.run = none ∧
    State.reset.requests = [] := ⟨rfl, rfl, rfl, rfl⟩

/-- Just before the first node and just past the last. -/
theorem witness_LookupOutsideTableRefused :
    ((walking ex1 (-1) 0#32 8 1 [] .extract).ExtractingWith ex1 (aRun 1 [] .extract) ∧
      (walking ex1 (-1) 0#32 8 1 [] .extract).treeIndex < 0) ∧
    ((walking ex1 1 0#32 8 1 [] .extract).ExtractingWith ex1 (aRun 1 [] .extract) ∧
      (ex1.nodeCount : Int) ≤ (walking ex1 1 0#32 8 1 [] .extract).treeIndex) :=
  ⟨⟨rfl, by decide⟩, ⟨rfl, by decide⟩⟩

/-- A step inside a command and the rule's premise on it. -/
theorem witness_StepKeepsTheInvariant :
    (walking ex2 1 3#32 2 1 [] .extract).Inv ∧
    step (walking ex2 1 3#32 2 1 [] .extract) = .next (walking ex2 0 3#32 0 1 [] .extract) :=
  ⟨walking_inv _ _ _ _ _ _ _ (by decide) (by decide) (by decide) (by decide), rfl⟩

theorem witness_ResetMeetsTheInvariant : exec (.new ex1) (faulted ex1) = .next (after (.new ex1) (faulted ex1)) := rfl

theorem witness_WellFormedMachineIsNeverStuck : (walking ex2 1 3#32 2 1 [] .extract).Inv :=
  walking_inv _ _ _ _ _ _ _ (by decide) (by decide) (by decide) (by decide)

/-! ### Histories -/

/-- `NEW EX3`, then a DECODE of the byte `0xB0` with room for four symbols (V14). -/
def v14 : State := after (.decode 4 [0xB0#8]) (fresh ex3)

/-- V14 as a history. -/
theorem history_v14 : History ex3 [0xB0#8] [0x79#8, 0x7A#8, 0x78#8, 0x78#8] v14 :=
  History.decode [] [] (fresh ex3) v14 4 [0xB0#8] 4 1 (History.new State.reset _ rfl) rfl rfl

/-- The same stream, with room for one symbol. -/
theorem history_v14_short : History ex3 [0xB0#8] [0x79#8] (after (.decode 1 [0xB0#8]) (fresh ex3)) :=
  History.decode [] [] (fresh ex3) _ 1 [0xB0#8] 1 1 (History.new State.reset _ rfl) rfl rfl

/-- The four symbols of V14 with their codewords. -/
def v14Code : List (List Bool × Byte) :=
  [([true, false], 0x79#8), ([true, true], 0x7A#8), ([false], 0x78#8), ([false], 0x78#8)]

theorem v14_codewords : ∀ p ∈ v14Code, ex3.Codeword ex3.treeIndexStart p.1 p.2 := by
  have y : ex3.Codeword 1 [false] 0x79#8 := .ret 1 0 _ _ (by decide) (by decide) (by decide) (by decide)
  have z : ex3.Codeword 1 [true] 0x7A#8 := .ret 1 1 _ _ (by decide) (by decide) (by decide) (by decide)
  have yy : ex3.Codeword 0 [true, false] 0x79#8 :=
    .descend 0 1 1 1 [true] _ _ (by decide) (by decide) (by decide) (by decide) (by decide) y
  have zz : ex3.Codeword 0 [true, true] 0x7A#8 :=
    .descend 0 1 1 1 [true] _ _ (by decide) (by decide) (by decide) (by decide) (by decide) z
  have x : ex3.Codeword 0 [false] 0x78#8 := .ret 0 0 _ _ (by decide) (by decide) (by decide) (by decide)
  intro p hp
  simp only [v14Code, List.mem_cons, List.not_mem_nil, or_false] at hp
  obtain rfl | rfl | rfl | rfl := hp
  · exact yy
  · exact zz
  · exact x
  · exact x

/-- V14 with room for more: all of it is written, with the two padding zeros. -/
def v14Drained : State := after (.decode 8 [0xB0#8]) (fresh ex3)

theorem drained_v14 : DrainedHistory ex3 [0xB0#8] [0x79#8, 0x7A#8, 0x78#8, 0x78#8, 0x78#8, 0x78#8] v14Drained :=
  DrainedHistory.decode [] [] (fresh ex3) v14Drained 8 [0xB0#8] 6 1 (History.new State.reset _ rfl) rfl rfl (by decide)

/-- The same by V14's FLUSH. -/
theorem drained_v14_flush :
    DrainedHistory ex3 [0xB0#8] [0x79#8, 0x7A#8, 0x78#8, 0x78#8, 0x78#8, 0x78#8] (after (.flush 8) v14) :=
  DrainedHistory.flush [0xB0#8] [0x79#8, 0x7A#8, 0x78#8, 0x78#8] v14 _ 8 false 2 0 history_v14 rfl rfl (by decide)

theorem witness_HeldBitsAreTheLastFourBytes : History ex3 [0xB0#8] [0x79#8, 0x7A#8, 0x78#8, 0x78#8] v14 := history_v14

theorem witness_AlignedIffLastFourBytesZero :
    History ex3 [0xB0#8] [0x79#8, 0x7A#8, 0x78#8, 0x78#8] v14 ∧
    (exec .aligned v14 = .next (after .aligned v14) ∧ (after .aligned v14).response = some (.ok false 0 0)) ∧
    (exec (.flush 8) v14 = .next (after (.flush 8) v14) ∧ (after (.flush 8) v14).response = some (.ok false 2 0)) :=
  ⟨history_v14, ⟨rfl, by decide⟩, ⟨rfl, by decide⟩⟩

theorem witness_WindowIsASuffixOfTheInput : History ex3 [0xB0#8] [0x79#8, 0x7A#8, 0x78#8, 0x78#8] v14 := history_v14

/-- V8's split, and one whose second half faults. -/
theorem witness_DecodeSplitByCapacity :
    ((held ex2 1 0#32 0).Inv ∧ 2 ≤ 6 ∧
      exec (.decode 2 [0xFC#8, 0xB8#8]) (held ex2 1 0#32 0) =
        .next (after (.decode 2 [0xFC#8, 0xB8#8]) (held ex2 1 0#32 0)) ∧
      (after (.decode 2 [0xFC#8, 0xB8#8]) (held ex2 1 0#32 0)).response = some (.ok false 2 2) ∧
      exec (.decode 4 []) (after (.decode 2 [0xFC#8, 0xB8#8]) (held ex2 1 0#32 0)) =
        .next (after (.decode 4 []) (after (.decode 2 [0xFC#8, 0xB8#8]) (held ex2 1 0#32 0))) ∧
      (after (.decode 4 []) (after (.decode 2 [0xFC#8, 0xB8#8]) (held ex2 1 0#32 0))).response =
        some (.ok false 4 0)) ∧
    ((after (.decode 2 [0x30#8]) (held ex1 0 0#32 0)).response = some (.ok false 2 1) ∧
      (after (.decode 2 []) (after (.decode 2 [0x30#8]) (held ex1 0 0#32 0))).fault = true) :=
  ⟨⟨held_inv _ _ _ _ (by decide) (by decide) (by decide), by decide, rfl, by decide, rfl, by decide⟩,
    ⟨by decide, by decide⟩⟩

theorem witness_OutputDoesNotDependOnChunking :
    ex3.Replicated ∧ History ex3 [0xB0#8] [0x79#8] (after (.decode 1 [0xB0#8]) (fresh ex3)) ∧
    History ex3 [0xB0#8] [0x79#8, 0x7A#8, 0x78#8, 0x78#8] v14 ∧ [0xB0#8] <+: [0xB0#8] ∧
    DrainedHistory ex3 [0xB0#8] [0x79#8, 0x7A#8, 0x78#8, 0x78#8, 0x78#8, 0x78#8] v14Drained ∧
    DrainedHistory ex3 [0xB0#8] [0x79#8, 0x7A#8, 0x78#8, 0x78#8, 0x78#8, 0x78#8] (after (.flush 8) v14) :=
  ⟨ex3_replicated, history_v14_short, history_v14, List.prefix_refl _, drained_v14, drained_v14_flush⟩

theorem witness_CodewordsDecodeToTheirSymbols :
    ex3.Replicated ∧ (∀ p ∈ v14Code, ex3.Codeword ex3.treeIndexStart p.1 p.2) ∧
    streamBits [0xB0#8] = v14Code.flatMap Prod.fst ++ [false, false] ∧ [0xB0#8] <+: [0xB0#8] ∧
    History ex3 [0xB0#8] [0x79#8, 0x7A#8, 0x78#8, 0x78#8] v14 ∧
    DrainedHistory ex3 [0xB0#8] [0x79#8, 0x7A#8, 0x78#8, 0x78#8, 0x78#8, 0x78#8] v14Drained ∧
    (History ex3 [0xB0#8] [0x79#8] (after (.decode 1 [0xB0#8]) (fresh ex3)) ∧ [0xB0#8] ++ [] <+: [0xB0#8] ∧
      [0x79#8].length + 3 ≤ v14Code.length) :=
  ⟨ex3_replicated, v14_codewords, by decide, List.prefix_refl _, history_v14, drained_v14,
    history_v14_short, List.prefix_refl _, by decide⟩

theorem witness_OneDecodeGivesTheMessage :
    ex3.Replicated ∧ (∀ p ∈ v14Code, ex3.Codeword ex3.treeIndexStart p.1 p.2) ∧
    streamBits [0xB0#8] = v14Code.flatMap Prod.fst ++ [false, false] ∧
    exec (.new ex3) State.reset = .next (fresh ex3) :=
  ⟨ex3_replicated, v14_codewords, by decide, rfl⟩

/-- V1's state after its DECODE, with and without the stale bit. -/
theorem witness_StaleBitsNeverReachTheOutput :
    (held ex1 0 0x20#32 4).Inv ∧ (held ex1 0 0x20#32 4).SameBesidesHeldBits (held ex1 0 0#32 4) ∧
    (held ex1 0 0x20#32 4).window = (held ex1 0 0#32 4).window ∧
    exec (.decode 6 [0xAA#8]) (held ex1 0 0x20#32 4) = .next (after (.decode 6 [0xAA#8]) (held ex1 0 0x20#32 4)) ∧
    exec (.flush 6) (held ex1 0 0x20#32 4) = .next (after (.flush 6) (held ex1 0 0x20#32 4)) :=
  ⟨held_inv _ _ _ _ (by decide) (by decide) (by decide), rfl, by decide, rfl, rfl⟩

end Sys2Proof.Tests
end

section
/-! Rules for whole instructions, each said once: what a command other than `NEW` is, and what any pointer word can
answer. -/

namespace Sys2Proof.Machine

/-! ### Commands -/

theorem decodeCmd_isPointer (q : Request) : (decodeCmd q).isPointer = false := by
  unfold decodeCmd
  split
  · rfl
  split
  · rfl
  split <;> rfl

theorem exec_new_eq (c : Coding) (s : State) : exec (.new c) s = execNew c s := rfl

theorem exec_decode_eq (dstCap : Nat) (src : List Byte) (s : State) :
    exec (.decode dstCap src) s = onConstructed s (runToEnd (s.startRun .decode dstCap src)) := rfl

theorem exec_flush_eq (dstCap : Nat) (s : State) :
    exec (.flush dstCap) s = onConstructed s (runToEnd (s.startRun .flush dstCap [])) := rfl

theorem exec_aligned_eq (s : State) :
    exec .aligned s = onConstructed s (.next (s.respond (.ok s.alignedFlag 0 0))) := rfl

/-- A command other than `NEW` is ALIGNED's answer or a run of EXTRACT, behind the same guard. -/
theorem exec_command_cases (i : Instr) (hi : i.isPointer = false) (hnew : ∀ c, i ≠ .new c) (s : State) :
    exec i s = onConstructed s (.next (s.respond (.ok s.alignedFlag 0 0))) ∨
      ∃ kind dstCap src, exec i s = onConstructed s (runToEnd (s.startRun kind dstCap src)) := by
  cases i with
  | descend | ret | invalid0 | invalid3 => simp [Instr.isPointer] at hi
  | new c => exact absurd rfl (hnew c)
  | decode dstCap src => exact .inr ⟨_, _, _, exec_decode_eq dstCap src s⟩
  | flush dstCap => exact .inr ⟨_, _, _, exec_flush_eq dstCap s⟩
  | aligned => exact .inl (exec_aligned_eq s)

theorem execNew_wf (c : Coding) (s : State) (hr : s.run = none) (hc : c.wf = true) :
    execNew c s = .next ((s.construct c).respond (.ok false 0 0)) := by
  simp [execNew, hr, hc]

theorem execNew_notWf (c : Coding) (s : State) (hr : s.run = none) (hc : c.wf = false) :
    execNew c s = .refused .codingNotWellFormed := by
  simp [execNew, hr, hc]

theorem onConstructed_unconstructed (s : State) (command : Result) (hr : s.run = none) (hc : s.coding = none) :
    onConstructed s command = .refused .unconstructed := by
  simp [onConstructed, hr, hc]

theorem onConstructed_faulted (s : State) (c : Coding) (command : Result) (hr : s.run = none) (hc : s.coding = some c)
    (hf : s.fault = true) : onConstructed s command = .next (s.respond .fault) := by
  simp [onConstructed, hr, hc, hf]

/-! ### The invariant through a command -/

theorem State.respond_inv (s : State) (hs : s.Inv) (response : Response) : (s.respond response).Inv :=
  s.Inv_congr _ hs rfl rfl rfl rfl rfl fun _ h => by simp at h

/-- What `NEW` leaves meets the invariant, whatever was there before. -/
theorem State.construct_inv (s : State) (c : Coding) (hc : c.wf = true) (response : Response) :
    ((s.construct c).respond response).Inv := by
  obtain ⟨hstart, _⟩ := c.WF2_of_wf hc
  refine ⟨?_, ?_, ?_, ?_, ?_⟩
  · intro c' hc'
    obtain rfl := Option.some.inj hc'
    exact hc
  · exact fun _ => Nat.zero_le 32
  · intro c' hc' _
    obtain rfl := Option.some.inj hc'
    simp [hstart]
  · simp [State.CauseOk, FaultCause.code]
  · exact fun _ h => by simp at h

theorem exec_new_inv (c : Coding) (s t : State) (h : exec (.new c) s = .next t) : t.Inv := by
  obtain ⟨_, hc, rfl⟩ := execNew_next c s t h
  exact s.construct_inv c hc _

/-- A command on a constructed Decoder between commands that meets the invariant answers, with the invariant. -/
theorem exec_command_inv (i : Instr) (hi : i.isPointer = false) (hnew : ∀ c, i ≠ .new c) (s : State) (hs : s.Inv)
    (hr : s.run = none) (c : Coding) (hc : s.coding = some c) : ∃ t, exec i s = .next t ∧ t.Inv := by
  match hf : s.fault with
  | true =>
    refine ⟨s.respond .fault, ?_, s.respond_inv hs _⟩
    obtain h | ⟨_, _, _, h⟩ := exec_command_cases i hi hnew s <;> rw [h, onConstructed_faulted s c _ hr hc hf]
  | false =>
    obtain h | ⟨kind, dstCap, src, h⟩ := exec_command_cases i hi hnew s <;>
      rw [h, onConstructed_ready s c _ hr hc hf]
    · exact ⟨_, rfl, s.respond_inv hs _⟩
    · obtain ⟨t, ht, hinv, _⟩ := runToEnd_inv s hs c hc hf kind dstCap src
      exact ⟨t, ht, hinv⟩

theorem exec_command_unconstructed (i : Instr) (hi : i.isPointer = false) (hnew : ∀ c, i ≠ .new c) (s : State)
    (hr : s.run = none) (hc : s.coding = none) : exec i s = .refused .unconstructed := by
  obtain h | ⟨_, _, _, h⟩ := exec_command_cases i hi hnew s <;> rw [h, onConstructed_unconstructed s _ hr hc]

/-! ### One step -/

theorem step_inside (s : State) (hr : s.run ≠ none) : step s = microStep s := by
  obtain ⟨r, hr⟩ := Option.ne_none_iff_exists'.1 hr
  simp [step, hr]

theorem step_idle (s : State) (hr : s.run = none) (hq : s.requests = []) : step s = .next s := by
  simp [step, State.nextRequest, hr, hq]

theorem step_request (s : State) (hr : s.run = none) (q : Request) (rest : List Request) (hq : s.requests = q :: rest) :
    step s = exec (decodeCmd q) { s with requests := rest } := by
  simp [step, State.nextRequest, hr, hq]

/-- What a command answers on a Decoder between commands that meets the invariant: a next state that meets it too, or
one of the two refusals the spec names. -/
theorem exec_request_of_inv (q : Request) (s : State) (hs : s.Inv) (hr : s.run = none) :
    (∃ t, exec (decodeCmd q) s = .next t ∧ t.Inv) ∨
      (∃ c, decodeCmd q = .new c ∧ c.wf = false ∧ exec (decodeCmd q) s = .refused .codingNotWellFormed) ∨
      ((∀ c, decodeCmd q ≠ .new c) ∧ s.coding = none ∧ exec (decodeCmd q) s = .refused .unconstructed) := by
  have hi := decodeCmd_isPointer q
  by_cases hnew : ∃ c, decodeCmd q = .new c
  · obtain ⟨c, hd⟩ := hnew
    rw [hd, exec_new_eq]
    match hc : c.wf with
    | true => exact .inl ⟨_, execNew_wf c s hr hc, s.construct_inv c hc _⟩
    | false => exact .inr (.inl ⟨c, rfl, hc, execNew_notWf c s hr hc⟩)
  · have hnew := not_exists.1 hnew
    by_cases hc : s.coding = none
    · exact .inr (.inr ⟨hnew, hc, exec_command_unconstructed _ hi hnew s hr hc⟩)
    · obtain ⟨c, hc⟩ := Option.ne_none_iff_exists'.1 hc
      exact .inl (exec_command_inv _ hi hnew s hs hr c hc)

/-- The same of a step, which inside a command always answers a next state. -/
theorem step_of_inv (s : State) (hs : s.Inv) :
    (∃ t, step s = .next t ∧ t.Inv) ∨
      ∃ q rest, s.run = none ∧ s.requests = q :: rest ∧
        ((∃ c, decodeCmd q = .new c ∧ c.wf = false ∧ step s = .refused .codingNotWellFormed) ∨
          ((∀ c, decodeCmd q ≠ .new c) ∧ s.coding = none ∧ step s = .refused .unconstructed)) := by
  by_cases hr : s.run = none
  · match hq : s.requests with
    | [] => exact .inl ⟨s, step_idle s hr hq, hs⟩
    | q :: rest =>
      rw [step_request s hr q rest hq]
      have hs' : ({ s with requests := rest } : State).Inv := hs
      exact (exec_request_of_inv q _ hs' hr).imp_right fun refused => ⟨q, rest, hr, rfl, refused⟩
  · obtain ⟨t, ht, hinv, _⟩ := microStep_keeps_inv s hs hr
    exact .inl ⟨t, by rw [step_inside s hr, ht], hinv⟩

/-- Settles O41: from a state that meets the invariant the only next state a step answers meets it. -/
theorem stepKeepsTheInvariant : Obligations.StepKeepsTheInvariant := by
  intro s t hs h
  obtain ⟨u, hu, hinv⟩ | ⟨q, rest, _, _, ⟨c, _, _, href⟩ | ⟨_, _, href⟩⟩ := step_of_inv s hs
  · obtain rfl : u = t := by simpa [hu] using h
    exact hinv
  · simp [href] at h
  · simp [href] at h

/-- Settles O43: a step that answers no next state is one of the two refusals at a command. -/
theorem wellFormedMachineIsNeverStuck : Obligations.WellFormedMachineIsNeverStuck := by
  intro s hs
  exact (step_of_inv s hs).imp_left fun ⟨t, ht, _⟩ => ⟨t, ht⟩

/-- Settles O42: nothing is constructed at reset, and `NEW` puts the walker at a root that the check found in the
table. -/
theorem resetMeetsTheInvariant : Obligations.ResetMeetsTheInvariant := by
  refine ⟨?_, fun s t c h => exec_new_inv c s t h⟩
  simp [State.Inv, State.CodingOk, State.CountOk, State.IndexOk, State.CauseOk, State.RunOk, State.reset,
    FaultCause.code]

/-- Settles O40: the capacity test passes, and `TblRead` answers nothing outside the table. -/
theorem lookupOutsideTableRefused : Obligations.LookupOutsideTableRefused := by
  intro s c r he hout
  obtain ⟨hc, hr, _, hp, hroom⟩ := (s.extraction_eq_some c r).1 he
  have hnotFull : ¬ s.dstFull r = true := by rw [State.dstFull_iff]; omega
  have hlookup : s.lookup = none := by
    rw [s.lookup_eq c hc, c.tblRead_eq_none _ _ (hout.imp_right .inl), Option.map_none]
  rw [step_inside s (by simp [hr]), microStep_extract s r hr hp, extractStep, if_neg hnotFull, hlookup]

end Sys2Proof.Machine
end

section
/-! What the pointer words and the commands leave unchanged (10 R36), and what follows for FAULT (10 R28). -/

namespace Sys2Proof.Machine

/-! ### Pointer words -/

/-- The next state of a pointer word executed on the Coding `c`. -/
inductive PointerStep (s : State) (c : Coding) : Instr → State → Prop where
  | stall (i : Instr) : PointerStep s c i (s.setPhase .needInput)
  | descend (n : Nat) (offset : Int) :
      PointerStep s c (.descend n offset) ((s.consume n).moveTo (s.treeIndex + offset))
  | ret (n : Nat) (symbol : Byte) :
      PointerStep s c (.ret n symbol) (((s.consume n).emit symbol).moveTo (c.treeIndexStart : Int))
  | corrupt (i : Instr) (n : Nat) (info : CorruptInfo) (hi : i = .invalid0 n ∨ i = .invalid3 n) :
      PointerStep s c i ((s.consume n).raiseCodingCorrupt info)

theorem pointerStep_of_takePointer (i : Instr) (n : Nat) (dispatch : Coding → State → State) (s t : State)
    (hi : exec i s = takePointer n dispatch s) (taken : ∀ c, PointerStep s c i (dispatch c (s.consume n)))
    (h : exec i s = .next t) : ∃ c r, s.extraction = some (c, r) ∧ PointerStep s c i t := by
  obtain ⟨c, r, he, ⟨_, rfl⟩ | ⟨_, rfl⟩⟩ := takePointer_next n dispatch s t (hi ▸ h)
  · exact ⟨c, r, he, .stall i⟩
  · exact ⟨c, r, he, taken c⟩

/-- A pointer word that answers a next state found an iteration of EXTRACT under way, and did one of these. -/
theorem exec_pointer_next (i : Instr) (hi : i.isPointer = true) (s t : State) (h : exec i s = .next t) :
    ∃ c r, s.extraction = some (c, r) ∧ PointerStep s c i t := by
  cases i with
  | descend n offset =>
    exact pointerStep_of_takePointer _ n _ s t (exec_descend_eq n offset s) (fun _ => .descend n offset) h
  | ret n symbol =>
    exact pointerStep_of_takePointer _ n _ s t (exec_ret_eq n symbol s) (fun _ => .ret n symbol) h
  | invalid0 n =>
    exact pointerStep_of_takePointer _ n _ s t (exec_invalid0_eq n s) (fun _ => .corrupt _ n _ (.inl rfl)) h
  | invalid3 n =>
    exact pointerStep_of_takePointer _ n _ s t (exec_invalid3_eq n s) (fun _ => .corrupt _ n _ (.inr rfl)) h
  | new | decode | flush | aligned => simp [Instr.isPointer] at hi

/-- Settles O17, by what a pointer word can do. -/
theorem pointerWordsFrame : Obligations.PointerWordsFrame := by
  intro s t i hi h
  obtain ⟨c, r, _, hstep⟩ := exec_pointer_next i hi s t h
  cases hstep with
  | stall => simp [Function.comp_def]
  | descend n offset => simp
  | ret n symbol => simp
  | corrupt _ n info hi => obtain rfl | rfl := hi <;> simp

/-! ### A command in progress -/

/-- What DECODE, FLUSH and ALIGNED, from their first micro-step to their response, leave of `s` in `t`. -/
structure CommandFrame (s t : State) : Prop where
  coding : t.coding = s.coding
  requests : t.requests = s.requests
  unfaulted : t.fault = false →
    s.fault = false ∧ t.fcause = s.fcause ∧ t.corruptInfo = s.corruptInfo ∧ t.freeCount = s.freeCount

theorem CommandFrame.trans {s t u : State} (h : CommandFrame s t) (h' : CommandFrame t u) : CommandFrame s u where
  coding := h'.coding.trans h.coding
  requests := h'.requests.trans h.requests
  unfaulted hu := by
    obtain ⟨ht, hcause, hinfo, hfree⟩ := h'.unfaulted hu
    obtain ⟨hs, hcause', hinfo', hfree'⟩ := h.unfaulted ht
    exact ⟨hs, hcause.trans hcause', hinfo.trans hinfo', hfree.trans hfree'⟩

theorem State.respond_frame (s : State) (response : Response) : CommandFrame s (s.respond response) :=
  ⟨rfl, rfl, fun h => ⟨h, rfl, rfl, rfl⟩⟩

theorem State.startRun_frame (s : State) (kind : RunKind) (dstCap : Nat) (src : List Byte) :
    CommandFrame s (s.startRun kind dstCap src) := ⟨rfl, rfl, fun h => ⟨h, rfl, rfl, rfl⟩⟩

theorem MicroStep.frame {s : State} {c : Coding} {r : Run} {t : State} (h : MicroStep s c r t) : CommandFrame s t := by
  cases h with
  | full | stall | descend | ret | respond => exact ⟨rfl, rfl, fun hf => ⟨hf, rfl, rfl, rfl⟩⟩
  | corrupt => exact ⟨rfl, rfl, fun hf => by simp at hf⟩
  | refill =>
    obtain ⟨n, hb, _, e, _⟩ := State.refillAll_spec (r.src.drop r.nSrc) s
    rw [e]
    exact ⟨rfl, rfl, fun hf => ⟨hf, rfl, rfl, rfl⟩⟩

theorem microStep_frame (s t : State) (hc : s.coding ≠ none) (h : microStep s = .next t) : CommandFrame s t := by
  obtain ⟨c, hc⟩ := Option.ne_none_iff_exists'.1 hc
  match hr : s.run with
  | none =>
    obtain rfl : s = t := by simpa [microStep_idle s hr] using h
    exact ⟨rfl, rfl, fun hf => ⟨hf, rfl, rfl, rfl⟩⟩
  | some r => exact (microStep_inversion s c r hc hr t h).frame

theorem runCommand_frame (fuel : Nat) (s t : State) (hc : s.coding ≠ none) (h : runCommand fuel s = .next t) :
    CommandFrame s t :=
  (runCommand_keeps (CommandFrame s) (fun u v hu huv => hu.trans (microStep_frame u v (hu.coding ▸ hc) huv))
    fuel s t ⟨rfl, rfl, fun hf => ⟨hf, rfl, rfl, rfl⟩⟩ h).1

theorem exec_command_frame (i : Instr) (hi : i.isPointer = false) (hnew : ∀ c, i ≠ .new c) (s t : State)
    (h : exec i s = .next t) : CommandFrame s t := by
  obtain hx | ⟨kind, dstCap, src, hx⟩ := exec_command_cases i hi hnew s
  · rw [hx] at h
    obtain ⟨_, _, ⟨_, rfl⟩ | ⟨_, hrun⟩⟩ := onConstructed_next s t _ h
    · exact s.respond_frame _
    · cases hrun
      exact s.respond_frame _
  · rw [hx] at h
    obtain ⟨_, hc, ⟨_, rfl⟩ | ⟨_, hrun⟩⟩ := onConstructed_next s t _ h
    · exact s.respond_frame _
    · exact (s.startRun_frame kind dstCap src).trans (runCommand_frame _ _ t hc hrun)

/-! ### FLUSH ingests nothing -/

/-- A FLUSH that began with `heldBits` is in progress, or has ended. -/
def State.FlushHolds (heldBits : AccWord) (s : State) : Prop :=
  (s.fault = false → s.heldBits = heldBits) ∧ ∀ r, s.run = some r → r.kind = .flush

theorem microStep_flushHolds (heldBits : AccWord) (s t : State) (hc : s.coding ≠ none) (hs : s.FlushHolds heldBits)
    (h : microStep s = .next t) : t.FlushHolds heldBits := by
  obtain ⟨c, hc⟩ := Option.ne_none_iff_exists'.1 hc
  obtain ⟨hheld, hkind⟩ := hs
  match hr : s.run with
  | none =>
    obtain rfl : s = t := by simpa [microStep_idle s hr] using h
    exact ⟨hheld, hkind⟩
  | some r =>
    have hk := hkind r hr
    cases microStep_inversion s c r hc hr t h with
    | full | stall => exact ⟨hheld, fun r' hr' => by simp [hr] at hr'; simp [← hr', hk]⟩
    | descend | ret => exact ⟨hheld, hkind⟩
    | corrupt => exact ⟨fun hf => by simp at hf, fun _ h => by simp at h⟩
    | respond => exact ⟨hheld, fun _ h => by simp at h⟩
    | refill _ hdecode => simp [hk] at hdecode

theorem exec_flush_heldBits (dstCap : Nat) (s t : State) (h : exec (.flush dstCap) s = .next t)
    (hf : t.fault = false) : t.heldBits = s.heldBits := by
  rw [exec_flush_eq] at h
  obtain ⟨_, hc, ⟨_, rfl⟩ | ⟨_, hrun⟩⟩ := onConstructed_next s t _ h
  · rfl
  · have begun : (s.startRun .flush dstCap []).FlushHolds s.heldBits :=
      ⟨fun _ => rfl, fun r hr => by simp at hr; simp [← hr]⟩
    have kept := runCommand_keeps (fun u => u.coding = s.coding ∧ u.FlushHolds s.heldBits)
      (fun u v hu huv => by
        have hcu : u.coding ≠ none := hu.1 ▸ hc
        exact ⟨(microStep_frame u v hcu huv).coding.trans hu.1, microStep_flushHolds _ u v hcu hu.2 huv⟩)
      _ (s.startRun .flush dstCap []) t ⟨rfl, begun⟩ hrun
    exact kept.1.2.1 hf

/-- Between commands a response changes nothing else. -/
theorem State.respond_of_idle (s : State) (hr : s.run = none) (response : Response) :
    s.respond response = { s with response := some response } := by
  cases s
  cases hr
  rfl

theorem exec_aligned_next (s t : State) (h : exec .aligned s = .next t) :
    ∃ response, t = { s with response := some response } := by
  rw [exec_aligned_eq] at h
  obtain ⟨hr, _, ⟨_, rfl⟩ | ⟨_, hrun⟩⟩ := onConstructed_next s t _ h
  · exact ⟨_, s.respond_of_idle hr _⟩
  · cases hrun
    exact ⟨_, s.respond_of_idle hr _⟩

/-- Settles O34: the frame of every micro-step, through the command. -/
theorem commandsFrame : Obligations.CommandsFrame := by
  intro s t i hi h
  have hframe : CommandFrame s t := by
    obtain rfl | ⟨_, rfl⟩ | ⟨_, _, rfl⟩ := hi <;> exact exec_command_frame _ rfl (fun _ h => by cases h) s t h
  have haligned : i = .aligned → t = { s with response := t.response } := by
    rintro rfl
    obtain ⟨_, rfl⟩ := exec_aligned_next s t h
    rfl
  refine ⟨hframe.coding, hframe.requests, ?_, fun hf => ?_, haligned⟩
  · intro c c' node slot hc hc'
    obtain rfl : c = c' := Option.some.inj (hc.symm.trans (hframe.coding.symm.trans hc'))
    rfl
  · obtain ⟨hs, hcause, hinfo, hfree⟩ := hframe.unfaulted hf
    refine ⟨hs, hcause, hinfo, hfree, ?_⟩
    rintro (hi | ⟨n, rfl⟩)
    · rw [haligned hi]
    · exact exec_flush_heldBits n s t h hf

/-! ### FAULT -/

/-- Without a Coding no lookup is made, so nothing can fault. -/
theorem microStep_unconstructed_fault (s t : State) (hc : s.coding = none) (h : microStep s = .next t) :
    t.fault = s.fault := by
  match hr : s.run with
  | none =>
    obtain rfl : s = t := by simpa [microStep_idle s hr] using h
    rfl
  | some r =>
    match hp : r.phase with
    | .extract =>
      rw [microStep_extract s r hr hp] at h
      obtain ⟨_, rfl⟩ | ⟨_, pointer, hl, _⟩ := extractStep_next r s t h
      · rfl
      · simp [State.lookup, hc] at hl
    | .dstFull =>
      rw [microStep_dstFull s r hr hp] at h
      cases h
      rfl
    | .needInput =>
      rw [microStep_needInput s r hr hp] at h
      cases h
      obtain ⟨n, hb, _, e, _⟩ := State.refillAll_spec (r.src.drop r.nSrc) s
      unfold afterNeedInput
      rw [e]
      split
      · rfl
      · split <;> rfl

/-- A micro-step that sets FAULT took an invalid kind whose bits were held. -/
theorem microStep_faults (s t : State) (h : microStep s = .next t) (hs : s.fault = false) (ht : t.fault = true) :
    t.fcause = .codingCorrupt ∧ ∃ c, ∃ w : PtrWord c.targetW, s.coding = some c ∧
      c.tblRead s.treeIndex (s.select c) = some w ∧ (ptrKind w = kindInvalid0 ∨ ptrKind w = kindInvalid3) ∧
      ptrConsumeBits w ≤ s.heldCount := by
  match hc : s.coding with
  | none => simp [microStep_unconstructed_fault s t hc h, hs] at ht
  | some c =>
    match hr : s.run with
    | none =>
      obtain rfl : s = t := by simpa [microStep_idle s hr] using h
      simp [hs] at ht
    | some r =>
      cases microStep_inversion s c r hc hr t h with
      | corrupt _ _ w hl hn hk => exact ⟨rfl, c, w, rfl, hl, hk, hn⟩
      | full | stall | descend | ret | respond => simp [hs] at ht
      | refill =>
        obtain ⟨n, hb, _, e, _⟩ := State.refillAll_spec (r.src.drop r.nSrc) s
        simp [e, hs] at ht

/-- On a faulted Decoder an instruction other than `NEW` only answers `fault = 1`: a pointer word finds no extraction,
a command does not begin. -/
theorem exec_faulted (i : Instr) (hnew : ∀ c, i ≠ .new c) (s t : State) (h : exec i s = .next t)
    (hf : s.fault = true) : t = { s with response := some .fault } := by
  match hi : i.isPointer with
  | true =>
    obtain ⟨c, r, he, _⟩ := exec_pointer_next i hi s t h
    obtain ⟨_, _, hunfaulted, _⟩ := (s.extraction_eq_some c r).1 he
    simp [hf] at hunfaulted
  | false =>
    have hguard : ∃ command, exec i s = onConstructed s command :=
      (exec_command_cases i hi hnew s).elim (fun h => ⟨_, h⟩) fun ⟨_, _, _, h⟩ => ⟨_, h⟩
    obtain ⟨command, hx⟩ := hguard
    obtain ⟨hr, _, ⟨_, rfl⟩ | ⟨hunfaulted, _⟩⟩ := onConstructed_next s t command (hx ▸ h)
    · exact s.respond_of_idle hr _
    · simp [hf] at hunfaulted

/-- Every instruction that ends without a fault leaves FCAUSE, or is a `NEW`, which clears it. -/
theorem exec_fcause (i : Instr) (s t : State) (h : exec i s = .next t) (hf : t.fault = false) :
    t.fcause = s.fcause ∨ t.fcause = .noFault := by
  match hi : i.isPointer with
  | true =>
    obtain ⟨_, _, _, _, _, hunfaulted⟩ := pointerWordsFrame s t i hi h
    obtain ⟨_, _, _, hcause, _⟩ := hunfaulted hf
    exact .inl hcause
  | false =>
    by_cases hnew : ∃ c, i = .new c
    · obtain ⟨c, rfl⟩ := hnew
      obtain ⟨_, _, rfl⟩ := execNew_next c s t h
      exact .inr rfl
    · obtain ⟨_, hcause, _⟩ := (exec_command_frame i hi (not_exists.1 hnew) s t h).unfaulted hf
      exact .inl hcause

/-- Settles O36: `NEW` clears FAULT, only a taken invalid kind sets it, and while it is set no other acts. -/
theorem faultFlagIsSticky : Obligations.FaultFlagIsSticky := by
  refine ⟨?_, ?_, fun s t i hnew h hf => exec_faulted i hnew s t h hf, ?_⟩
  · intro s t c h
    obtain ⟨_, _, rfl⟩ := execNew_next c s t h
    exact ⟨rfl, rfl⟩
  · intro s t h hs ht
    obtain ⟨hcause, htaken⟩ := microStep_faults s t h hs ht
    exact ⟨by rw [hcause]; rfl, htaken⟩
  · intro s t i h hcode hf
    obtain hcause | hcause := exec_fcause i s t h hf
    · rw [hcause, hcode]
    · rw [hcause]; rfl

end Sys2Proof.Machine
end

section
/-! Stale bits (10 R31, 40 R117): SELECT, REFILL and CONSUME act on the valid window, so two machines that differ only
outside it run in step. -/

namespace Sys2Proof.Machine

/-! ### The window -/

/-- SELECT as a function of the valid window alone (40 R112, R117). -/
theorem selector_eq_window (t : Nat) (heldBits : AccWord) (h : Nat) (ht : t ≤ 32) :
    selector t heldBits h =
      if t ≤ h then heldBits.toNat % 2 ^ h / 2 ^ (h - t) else heldBits.toNat % 2 ^ h * 2 ^ (t - h) := by
  unfold selector
  split
  · have hpow : 2 ^ h = 2 ^ (h - t) * 2 ^ t := by rw [← Nat.pow_add]; congr 1; omega
    rw [toNat_and_mask _ _ ht, BitVec.toNat_ushiftRight, Nat.shiftRight_eq_div_pow, hpow, Nat.mod_mul_right_div_self]
  · have hpow : 2 ^ t = 2 ^ h * 2 ^ (t - h) := by rw [← Nat.pow_add]; congr 1; omega
    rw [toNat_and_mask _ _ ht, BitVec.toNat_shiftLeft, Nat.mod_mod_of_dvd _ (Nat.pow_dvd_pow 2 ht), Nat.shiftLeft_eq,
      hpow, Nat.mul_mod_mul_right]

theorem State.select_eq_window (s : State) (c : Coding) (ht : c.treeShift ≤ 32) :
    s.select c = if c.treeShift ≤ s.heldCount then s.window / 2 ^ (s.heldCount - c.treeShift)
      else s.window * 2 ^ (c.treeShift - s.heldCount) :=
  selector_eq_window _ _ _ ht

/-- REFILL with room appends the byte to the window (40 R119). -/
theorem State.refill_window (s : State) (b : Byte) (hroom : s.heldCount ≤ 24) :
    (s.refill b).window = s.window * 256 + b.toNat := by
  have hb : b.toNat < 256 := b.isLt
  have hlow : (s.heldBits.toNat * 256 + b.toNat) % 256 = b.toNat := by omega
  have hhigh : (s.heldBits.toNat * 256 + b.toNat) / 256 = s.heldBits.toNat := by omega
  have hdvd : 2 ^ (s.heldCount + 8) ∣ 2 ^ 32 := Nat.pow_dvd_pow 2 (by omega)
  have hpow : 2 ^ (s.heldCount + 8) = 256 * 2 ^ s.heldCount := by rw [Nat.pow_add, Nat.mul_comm]
  rw [State.window, State.window, State.refill_heldBits_toNat, State.refill_heldCount, Nat.mod_mod_of_dvd _ hdvd, hpow,
    Nat.mod_mul, hlow, hhigh]
  ring

/-- CONSUME drops the oldest bits of the window (40 R114). -/
theorem State.consume_window (s : State) (n : Nat) : (s.consume n).window = s.window % 2 ^ (s.heldCount - n) :=
  (Nat.mod_mod_of_dvd _ (Nat.pow_dvd_pow 2 (Nat.sub_le _ _))).symm

/-! ### From a case of a micro-step to the micro-step -/

theorem microStep_lookup (s : State) (c : Coding) (r : Run) (w : PtrWord c.targetW) (hc : s.coding = some c)
    (hr : s.run = some r) (hp : r.phase = .extract) (hd : s.dst.length < r.dstCap)
    (hl : c.tblRead s.treeIndex (s.select c) = some w) : microStep s = exec (decodePtr w) s := by
  have hnotFull : ¬ s.dstFull r = true := by rw [State.dstFull_iff]; omega
  rw [microStep_extract s r hr hp, extractStep, if_neg hnotFull]
  simp only [s.lookup_eq c hc, hl, Option.map_some, runPointer_decodePtr]

theorem afterNeedInput_respond (r : Run) (s : State) (h : r.kind = .flush ∨ r.src.length ≤ r.nSrc) :
    afterNeedInput r s = s.respond (s.runResponse r) := by
  unfold afterNeedInput
  rw [← Run.srcUsedUp_iff] at h
  split
  · rfl
  · rename_i hk
    rw [if_pos (by simpa [hk] using h)]

theorem afterNeedInput_refill (r : Run) (s : State) (hk : r.kind = .decode) (h : r.nSrc < r.src.length) :
    afterNeedInput r s = (State.refillAll (r.src.drop r.nSrc) s).setPhase .extract := by
  have hleft : ¬ r.srcUsedUp = true := by rw [Run.srcUsedUp_iff]; omega
  simp [afterNeedInput, hk, hleft]

/-- The converse of `microStep_inversion` on an unfaulted Decoder. -/
theorem MicroStep.microStep_eq {s : State} {c : Coding} {r : Run} {t : State} (h : MicroStep s c r t)
    (hc : s.coding = some c) (hr : s.run = some r) (hf : s.fault = false) : microStep s = .next t := by
  have extracting (hp : r.phase = .extract) (hd : s.dst.length < r.dstCap) : s.extraction = some (c, r) :=
    (s.extraction_eq_some c r).2 ⟨hc, hr, hf, hp, hd⟩
  cases h with
  | full hp hd => rw [microStep_extract s r hr hp, extractStep, if_pos ((s.dstFull_iff r).2 hd)]
  | stall hp hd w hl hn =>
    rw [microStep_lookup s c r w hc hr hp hd hl]
    rcases kind_cases (ptrKind w) with hk | hk | hk | hk
    · rw [decodePtr_descend w hk, exec_descend_eq, takePointer_stall _ _ s c r (extracting hp hd) hn]
    · rw [decodePtr_ret w hk, exec_ret_eq, takePointer_stall _ _ s c r (extracting hp hd) hn]
    · rw [decodePtr_invalid0 w hk, exec_invalid0_eq, takePointer_stall _ _ s c r (extracting hp hd) hn]
    · rw [decodePtr_invalid3 w hk, exec_invalid3_eq, takePointer_stall _ _ s c r (extracting hp hd) hn]
  | descend hp hd w hl hn hk =>
    rw [microStep_lookup s c r w hc hr hp hd hl, decodePtr_descend w hk, exec_descend_eq,
      takePointer_taken _ _ s c r (extracting hp hd) hn]
    rfl
  | ret hp hd w hl hn hk =>
    rw [microStep_lookup s c r w hc hr hp hd hl, decodePtr_ret w hk, exec_ret_eq,
      takePointer_taken _ _ s c r (extracting hp hd) hn]
  | corrupt hp hd w hl hn hk =>
    rw [microStep_lookup s c r w hc hr hp hd hl]
    rcases hk with hk | hk
    · rw [decodePtr_invalid0 w hk, exec_invalid0_eq, takePointer_taken _ _ s c r (extracting hp hd) hn, hk]
      rfl
    · rw [decodePtr_invalid3 w hk, exec_invalid3_eq, takePointer_taken _ _ s c r (extracting hp hd) hn, hk]
      rfl
  | respond hp =>
    rcases hp with hp | ⟨hp, hk⟩
    · exact microStep_dstFull s r hr hp
    · rw [microStep_needInput s r hr hp, afterNeedInput_respond r s hk]
  | refill hp hk hs => rw [microStep_needInput s r hr hp, afterNeedInput_refill r s hk hs]

/-! ### Two machines that differ in stale bits -/

/-- The two machines differ in nothing but bits of `heldBits` outside the valid window. -/
def State.StaleTwin (s s' : State) : Prop := s.SameBesidesHeldBits s' ∧ s.window = s'.window

/-- The machine with another accumulator word. -/
def State.withHeldBits (s : State) (heldBits : AccWord) : State := { s with heldBits := heldBits }

@[simp] theorem State.withHeldBits_coding (s : State) (x : AccWord) : (s.withHeldBits x).coding = s.coding := rfl
@[simp] theorem State.withHeldBits_heldCount (s : State) (x : AccWord) :
    (s.withHeldBits x).heldCount = s.heldCount := rfl
@[simp] theorem State.withHeldBits_fault (s : State) (x : AccWord) : (s.withHeldBits x).fault = s.fault := rfl
@[simp] theorem State.withHeldBits_run (s : State) (x : AccWord) : (s.withHeldBits x).run = s.run := rfl
@[simp] theorem State.withHeldBits_dst (s : State) (x : AccWord) : (s.withHeldBits x).dst = s.dst := rfl

theorem State.StaleTwin.exists_heldBits {s s' : State} (h : s.StaleTwin s') :
    ∃ heldBits, s' = s.withHeldBits heldBits ∧ s.window = s'.window := ⟨_, h.1, h.2⟩

theorem State.StaleTwin.select_eq {s s' : State} (h : s.StaleTwin s') (c : Coding) (ht : c.treeShift ≤ 32) :
    s'.select c = s.select c := by
  obtain ⟨_, rfl, hw⟩ := h.exists_heldBits
  rw [State.select_eq_window _ c ht, State.select_eq_window _ c ht, hw, State.withHeldBits_heldCount]

theorem State.StaleTwin.consume {s s' : State} (h : s.StaleTwin s') (n : Nat) :
    (s.consume n).StaleTwin (s'.consume n) := by
  obtain ⟨_, rfl, hw⟩ := h.exists_heldBits
  exact ⟨rfl, by rw [State.consume_window, State.consume_window, hw, State.withHeldBits_heldCount]⟩

theorem State.StaleTwin.hasRoom_eq {s s' : State} (h : s.StaleTwin s') : s'.hasRoom = s.hasRoom := by
  obtain ⟨_, rfl, _⟩ := h.exists_heldBits
  rfl

theorem State.StaleTwin.refill {s s' : State} (h : s.StaleTwin s') (b : Byte) (hroom : s.heldCount ≤ 24) :
    (s.refill b).StaleTwin (s'.refill b) := by
  obtain ⟨heldBits, rfl, hw⟩ := h.exists_heldBits
  refine ⟨rfl, ?_⟩
  rw [s.refill_window b hroom, (s.withHeldBits heldBits).refill_window b hroom, hw]

theorem State.StaleTwin.refillAll (bytes : List Byte) : ∀ {s s' : State}, s.StaleTwin s' →
    (State.refillAll bytes s).StaleTwin (State.refillAll bytes s') := by
  induction bytes with
  | nil => exact fun h => h
  | cons b rest ih =>
    intro s s' h
    by_cases hroom : s.hasRoom = true
    · rw [State.refillAll, if_pos hroom, State.refillAll, if_pos (h.hasRoom_eq.trans hroom)]
      exact ih (h.refill b (s.hasRoom_iff.1 hroom))
    · rw [State.refillAll, if_neg hroom, State.refillAll, if_neg (h.hasRoom_eq ▸ hroom)]
      exact h

/-- How the ends of a command on the two machines compare. -/
structure AnswersAlike (kind : RunKind) (t t' : State) : Prop where
  fault : t'.fault = t.fault
  dst : t'.dst = t.dst
  faulted : t.fault = true → t'.response = t.response
  unfaulted : t.fault = false → t' = { t with heldBits := t'.heldBits, response := t'.response }
  decode : kind = .decode → t'.response = t.response
  flush : kind = .flush → t.fault = false → t'.response = some (.ok (t'.heldBits == 0#32) t.dst.length 0)

theorem AnswersAlike.of_fault (kind : RunKind) (t : State) (ht : t.fault = true) : AnswersAlike kind t t :=
  ⟨rfl, rfl, fun _ => rfl, fun _ => rfl, fun _ => rfl, fun _ hf => by simp [ht] at hf⟩

theorem State.StaleTwin.respond {s s' : State} (h : s.StaleTwin s') (hf : s.fault = false) (r : Run) :
    AnswersAlike r.kind (s.respond (s.runResponse r)) (s'.respond (s'.runResponse r)) := by
  obtain ⟨_, rfl, _⟩ := h.exists_heldBits
  refine ⟨rfl, rfl, fun ht => by simp [hf] at ht, fun _ => rfl, fun hk => ?_, fun hk _ => ?_⟩
  · simp [State.runResponse, hk]
  · simp [State.runResponse, hk, State.alignedFlag]

theorem State.refillAll_run (bytes : List Byte) (s : State) (r : Run) (hr : s.run = some r) :
    ∃ r', (State.refillAll bytes s).run = some r' ∧ r'.kind = r.kind := by
  obtain ⟨n, _, _, e, _⟩ := State.refillAll_spec bytes s
  exact ⟨{ r with nSrc := r.nSrc + n }, by rw [e, hr]; rfl, rfl⟩

/-- The twin takes the same micro-step: both go on as twins, or both end alike. -/
theorem MicroStep.staleTwin {s : State} {c : Coding} {r : Run} {t : State} (h : MicroStep s c r t)
    (ht : c.treeShift ≤ 32) (hr : s.run = some r) (hf : s.fault = false) {s' : State} (hs' : s.StaleTwin s') :
    ∃ t', MicroStep s' c r t' ∧
      ((t.StaleTwin t' ∧ ∃ r', t.run = some r' ∧ r'.kind = r.kind) ∨
        (t.run = none ∧ t'.run = none ∧ AnswersAlike r.kind t t')) := by
  have hsel := hs'.select_eq c ht
  have hlookup (w : PtrWord c.targetW) (hl : c.tblRead s.treeIndex (s.select c) = some w) :
      c.tblRead s.treeIndex (s'.select c) = some w := hsel ▸ hl
  obtain ⟨heldBits, rfl, hw⟩ := hs'.exists_heldBits
  cases h with
  | full hp hd => exact ⟨_, .full hp hd, .inl ⟨⟨rfl, hw⟩, r.inPhase .dstFull, by simp [hr], rfl⟩⟩
  | stall hp hd w hl hn =>
    exact ⟨_, .stall hp hd w (hlookup w hl) hn, .inl ⟨⟨rfl, hw⟩, r.inPhase .needInput, by simp [hr], rfl⟩⟩
  | descend hp hd w hl hn hk =>
    exact ⟨_, .descend (s := s.withHeldBits heldBits) hp hd w (hlookup w hl) hn hk,
      .inl ⟨⟨rfl, (hs'.consume _).2⟩, r, hr, rfl⟩⟩
  | ret hp hd w hl hn hk =>
    exact ⟨_, .ret (s := s.withHeldBits heldBits) hp hd w (hlookup w hl) hn hk,
      .inl ⟨⟨rfl, (hs'.consume _).2⟩, r, hr, rfl⟩⟩
  | corrupt hp hd w hl hn hk =>
    refine ⟨_, .corrupt (s := s.withHeldBits heldBits) hp hd w (hlookup w hl) hn hk, .inr ⟨rfl, rfl, ?_⟩⟩
    rw [hsel]
    exact .of_fault _ _ rfl
  | respond hp => exact ⟨_, .respond hp, .inr ⟨rfl, rfl, hs'.respond hf r⟩⟩
  | refill hp hk hs =>
    obtain ⟨same, window⟩ := hs'.refillAll (r.src.drop r.nSrc)
    obtain ⟨r', hr', hkind⟩ := State.refillAll_run (r.src.drop r.nSrc) s r hr
    refine ⟨_, .refill hp hk hs, .inl ⟨⟨?_, window⟩, r'.inPhase .extract, by simp [hr'], hkind⟩⟩
    rw [same]
    rfl

/-! ### A command on the two machines -/

theorem runCommand_idle (fuel : Nat) (s : State) (hr : s.run = none) : runCommand fuel s = .next s := by
  cases fuel <;> simp [runCommand, hr]

theorem runCommand_step (fuel : Nat) (s t : State) (hr : s.run ≠ none) (h : microStep s = .next t) :
    runCommand (fuel + 1) s = runCommand fuel t := by
  obtain ⟨r, hr⟩ := Option.ne_none_iff_exists'.1 hr
  simp [runCommand, hr, h]

theorem runCommand_staleTwin (fuel : Nat) : ∀ (s s' t : State) (r : Run), s.Inv → s.StaleTwin s' → s.run = some r →
    runCommand fuel s = .next t → ∃ t', runCommand fuel s' = .next t' ∧ AnswersAlike r.kind t t' := by
  induction fuel with
  | zero => intro s s' t r _ _ hr h; simp [runCommand, hr] at h
  | succ fuel ih =>
    intro s s' t r hs htwin hr h
    obtain ⟨hcoding, _, _, _, hrun⟩ := id hs
    obtain ⟨hsome, hf, _⟩ := hrun r hr
    obtain ⟨c, hc⟩ := Option.isSome_iff_exists.1 hsome
    obtain ⟨_, _, _, hshift⟩ := c.WF2_of_wf (hcoding c hc)
    obtain ⟨u, hu, huInv, _⟩ := microStep_keeps_inv s hs (by simp [hr])
    rw [runCommand_step fuel s u (by simp [hr]) hu] at h
    obtain ⟨u', hmicro, hnext⟩ := (microStep_inversion s c r hc hr u hu).staleTwin (by omega) hr hf htwin
    have hu' : runCommand (fuel + 1) s' = runCommand fuel u' := by
      obtain ⟨_, rfl, _⟩ := htwin.exists_heldBits
      exact runCommand_step fuel _ u' (by simp [hr]) (hmicro.microStep_eq hc hr hf)
    rw [hu']
    obtain ⟨htwin', r', hr', hkind⟩ | ⟨hidle, hidle', halike⟩ := hnext
    · exact hkind ▸ ih u u' t r' huInv htwin' hr' h
    · rw [runCommand_idle fuel u hidle] at h
      cases h
      exact ⟨u', runCommand_idle fuel u' hidle', halike⟩

theorem onConstructed_staleTwin (s s' t : State) (kind : RunKind) (dstCap : Nat) (src : List Byte) (hs : s.Inv)
    (htwin : s.StaleTwin s') (h : onConstructed s (runToEnd (s.startRun kind dstCap src)) = .next t) :
    ∃ t', onConstructed s' (runToEnd (s'.startRun kind dstCap src)) = .next t' ∧ AnswersAlike kind t t' := by
  obtain ⟨hr, hc, hcases⟩ := onConstructed_next s t _ h
  obtain ⟨c, hc⟩ := Option.ne_none_iff_exists'.1 hc
  obtain ⟨heldBits, rfl, hw⟩ := htwin.exists_heldBits
  obtain ⟨hf, rfl⟩ | ⟨hf, hrun⟩ := hcases
  · refine ⟨_, onConstructed_faulted _ c _ hr hc hf, ?_⟩
    exact ⟨rfl, rfl, fun _ => rfl, fun _ => rfl, fun _ => rfl, fun _ ht => by simp [hf] at ht⟩
  · rw [onConstructed_ready (s.withHeldBits heldBits) c _ hr hc hf]
    have begun : (s.startRun kind dstCap src).StaleTwin ((s.withHeldBits heldBits).startRun kind dstCap src) :=
      ⟨rfl, hw⟩
    exact runCommand_staleTwin _ _ _ t _ (s.startRun_inv hs c hc hf kind dstCap src) begun rfl hrun

/-- Settles O51: the two machines run in step, and only FLUSH's flag looks at the whole word. -/
theorem staleBitsNeverReachTheOutput : Obligations.StaleBitsNeverReachTheOutput := by
  intro s s' t dstCap src hs hsame hw
  refine ⟨fun h => ?_, fun h => ?_⟩
  · obtain ⟨t', ht', halike⟩ := onConstructed_staleTwin s s' t .decode dstCap src hs ⟨hsame, hw⟩ h
    refine ⟨t', ht', halike.fault, halike.dst, halike.decode rfl, fun hf => ?_⟩
    have hrest := halike.unfaulted hf
    rw [halike.decode rfl] at hrest
    exact hrest
  · obtain ⟨t', ht', halike⟩ := onConstructed_staleTwin s s' t .flush dstCap [] hs ⟨hsame, hw⟩ h
    exact ⟨t', ht', halike.fault, halike.dst, halike.faulted, fun hf => ⟨halike.flush rfl hf, halike.unfaulted hf⟩⟩

end Sys2Proof.Machine
end

section
/-! The table memory `TBL` (20): the check at `NEW` condition by condition, that no instruction writes a table, and that
one Decoder runs one command at a time. -/

namespace Sys2Proof

/-! ### The check at NEW -/

theorem Coding.constantsOk_iff (c : Coding) : c.constantsOk = true ↔ c.WF2 := by
  simp [Coding.constantsOk, Coding.WF2, Config.minTreeShift, Config.maxTreeShift, and_assoc]

/-- A listed cell of a canonical Coding is the word at a slot of a node. -/
theorem Coding.word_of_mem (c : Coding) (hc : c.canonical = true) (cell : Nat × PtrWord c.targetW)
    (hcell : cell ∈ c.table) :
    cell.1 / c.slots < c.nodeCount ∧ c.word (cell.1 / c.slots) (cell.1 % c.slots) = cell.2 := by
  simp only [Coding.canonical, Bool.and_eq_true, List.all_eq_true, decide_eq_true_eq] at hc
  obtain ⟨⟨_, hmem⟩, hsize⟩ := hc
  refine ⟨Nat.div_lt_of_lt_mul (Nat.mul_comm _ _ ▸ hsize cell hcell), ?_⟩
  rw [Coding.word, Coding.flatAddress, Nat.div_add_mod']
  exact Memory.read_mem c.table hmem cell hcell

/-- The check over the listed cells is the check over every slot of every node: what is not listed passes. -/
theorem Coding.wf_iff_pointerOk (c : Coding) (hc : c.canonical = true) :
    c.wf = true ↔ c.WF2 ∧ ∀ i s, i < c.nodeCount → s < c.slots → c.pointerOk i (c.word i s) = true := by
  constructor
  · intro hwf
    exact ⟨c.WF2_of_wf hwf, fun i s _ hs => c.pointerOk_of_wf hwf i s hs⟩
  · rintro ⟨hconstants, hslots⟩
    simp only [Coding.wf, Bool.and_eq_true, List.all_eq_true]
    refine ⟨⟨hc, c.constantsOk_iff.2 hconstants⟩, fun cell hcell => ?_⟩
    obtain ⟨hnode, hword⟩ := c.word_of_mem hc cell hcell
    have hslot : cell.1 % c.slots < c.slots := Nat.mod_lt _ (Nat.two_pow_pos _)
    exact hword ▸ hslots _ _ hnode hslot

/-- What the check asks of one word is what WF1, WF3, WF4 and WF5 ask of it. -/
theorem Coding.pointersOk_iff (c : Coding) :
    (∀ i s, i < c.nodeCount → s < c.slots → c.pointerOk i (c.word i s) = true) ↔
      c.WF1 ∧ c.WF3 ∧ c.WF4 ∧ c.WF5 := by
  simp only [Coding.pointerOk_iff]
  constructor
  · intro h
    refine ⟨?_, ?_, ?_, ?_⟩
    · intro i s hi hs
      obtain ⟨hconsume, _, _⟩ := h i s hi hs
      exact hconsume
    · intro i s n offset hi hs hp
      obtain ⟨_, hdescend, _⟩ := h i s hi hs
      obtain ⟨hlow, hhigh, _⟩ := hdescend n offset hp
      exact ⟨hlow, hhigh⟩
    · intro i s n offset hi hs hp
      obtain ⟨_, hdescend, _⟩ := h i s hi hs
      obtain ⟨_, _, hpositive⟩ := hdescend n offset hp
      exact hpositive
    · intro i s n symbol hi hs hp
      obtain ⟨_, _, hret⟩ := h i s hi hs
      exact hret n symbol hp
  · rintro ⟨h1, h3, h4, h5⟩ i s hi hs
    refine ⟨h1 i s hi hs, fun n offset hp => ?_, fun n symbol hp => h5 i s n symbol hi hs hp⟩
    obtain ⟨hlow, hhigh⟩ := h3 i s n offset hi hs hp
    exact ⟨hlow, hhigh, h4 i s n offset hi hs hp⟩

theorem Coding.wf_iff (c : Coding) (hc : c.canonical = true) :
    c.wf = true ↔ c.WF1 ∧ c.WF2 ∧ c.WF3 ∧ c.WF4 ∧ c.WF5 := by
  rw [c.wf_iff_pointerOk hc, c.pointersOk_iff]
  exact and_left_comm

namespace Machine

theorem execNew_refused_iff (c : Coding) (s : State) (hr : s.run = none) :
    execNew c s = .refused .codingNotWellFormed ↔ c.wf = false := by
  constructor
  · intro h
    by_contra hwf
    rw [execNew_wf c s hr (Bool.eq_true_of_not_eq_false hwf)] at h
    cases h
  · exact execNew_notWf c s hr

/-- Settles O22: the words the check does not look at are unlisted and pass, and `NEW` looks at nothing but the check. -/
theorem newRefusesIllFormedCodings : Obligations.NewRefusesIllFormedCodings :=
  fun c hc => ⟨c.wf_iff hc, fun s hr => execNew_refused_iff c s hr⟩

/-! ### The table while instructions run -/

/-- Settles O35, by the frame of a pointer word and the frame of a command. -/
theorem tableIsNeverWritten : Obligations.TableIsNeverWritten := by
  intro s t i hnew h
  match hi : i.isPointer with
  | true =>
    obtain ⟨hcoding, _⟩ := pointerWordsFrame s t i hi h
    exact hcoding
  | false => exact (exec_command_frame i hi hnew s t h).coding

/-! ### One command at a time -/

theorem execNew_overlapping (c : Coding) (s : State) (r : Run) (hr : s.run = some r) :
    execNew c s = .refused .overlappingCommand := by
  simp [execNew, hr]

theorem onConstructed_overlapping (s : State) (r : Run) (command : Result) (hr : s.run = some r) :
    onConstructed s command = .refused .overlappingCommand := by
  simp [onConstructed, hr]

/-- Settles O32: each command looks for one in progress before anything else. -/
theorem overlappingCommandsRefused : Obligations.OverlappingCommandsRefused := by
  intro s r i hi hr
  cases i with
  | descend | ret | invalid0 | invalid3 => simp [Instr.isPointer] at hi
  | new c => exact execNew_overlapping c s r hr
  | decode | flush | aligned => exact onConstructed_overlapping s r _ hr

end Machine

end Sys2Proof
end

section
/-! The encodings (30): the decoder is the left inverse of the encoder on well-formed instructions and its right inverse
on pointer words with no reserved bit set, each instruction is alone in its row of the opcode table, and a
pseudo-instruction fills the slots whose selector begins with its bits. -/

namespace Sys2Proof

/-! ### A pointer word is its fields -/

section
variable {tw : Nat} (w : BitVec (tw + 8))

theorem packPtr_fields : packPtr (ptrTarget w) (ptrKind w) (ptrConsumeBits w) = w := by
  apply BitVec.eq_of_toNat_eq
  rw [packPtr_toNat, ptrTarget_toNat, ptrKind_toNat, ptrConsumeBits_eq]
  omega

/-- `symbol` is `word[15:8]` where `target` has as many bits (30 R85). -/
theorem ptrSymbol_eq_extractLsb' (htw : 8 ≤ tw) : ptrSymbol w = w.extractLsb' 8 8 := by
  rw [ptrSymbol, ptrTarget, BitVec.setWidth_extractLsb'_of_le htw]

/-- With its reserved bits zero, a Return's `target` is its symbol (30 R85, R86). -/
theorem setWidth_ptrSymbol (h : ptrReserved w = 0) : (ptrSymbol w).setWidth tw = ptrTarget w := by
  have hsmall : (ptrTarget w).toNat < 2 ^ 8 := (Nat.div_eq_zero_iff_lt (by norm_num)).1 h
  apply BitVec.eq_of_toNat_eq
  rw [ptrSymbol, BitVec.toNat_setWidth, BitVec.toNat_setWidth, Nat.mod_eq_of_lt hsmall,
    Nat.mod_eq_of_lt (ptrTarget w).isLt]

end

/-! ### Decode of encode -/

theorem ofInt_toInt_of_offsetFits {tw : Nat} (htw : 0 < tw) (offset : Int) (h : offsetFits tw offset = true) :
    (BitVec.ofInt tw offset).toInt = offset := by
  simp only [offsetFits, Bool.and_eq_true, decide_eq_true_eq] at h
  obtain ⟨hlow, hhigh⟩ := h
  exact BitVec.toInt_ofInt_eq_self htw hlow hhigh

theorem consumeBits_mod (n : Nat) (h : consumeBitsFit n = true) : n % 64 = n :=
  Nat.mod_eq_of_lt (of_decide_eq_true h)

section
variable {tw : Nat} (target : BitVec tw) (n : Nat)

theorem decodePtr_packPtr_descend : decodePtr (packPtr target kindDescend n) = .descend (n % 64) target.toInt := by
  rw [decodePtr_descend _ (ptrKind_packPtr ..), ptrConsumeBits_packPtr, ptrOffset, ptrTarget_packPtr]

theorem decodePtr_packPtr_ret : decodePtr (packPtr target kindReturn n) = .ret (n % 64) (target.setWidth 8) := by
  rw [decodePtr_ret _ (ptrKind_packPtr ..), ptrConsumeBits_packPtr, ptrSymbol, ptrTarget_packPtr]

theorem decodePtr_packPtr_invalid0 : decodePtr (packPtr target kindInvalid0 n) = .invalid0 (n % 64) := by
  rw [decodePtr_invalid0 _ (ptrKind_packPtr ..), ptrConsumeBits_packPtr]

theorem decodePtr_packPtr_invalid3 : decodePtr (packPtr target kindInvalid3 n) = .invalid3 (n % 64) := by
  rw [decodePtr_invalid3 _ (ptrKind_packPtr ..), ptrConsumeBits_packPtr]

end

/-- Settles O2: a pointer's three fields come back from the word they were packed in, and a command's operands stand
beside its code. -/
theorem instructionEncodeDecodeAgree : Obligations.InstructionEncodeDecodeAgree := by
  intro tw i htw hi
  cases i with
  | descend n offset =>
    obtain ⟨hn, hoffset⟩ := Bool.and_eq_true_iff.1 hi
    rw [encodeAt, decodeAt, decodePtr_packPtr_descend, consumeBits_mod n hn,
      ofInt_toInt_of_offsetFits (by omega) offset hoffset]
  | ret n symbol =>
    have hsymbol : (symbol.setWidth tw).setWidth 8 = symbol := by
      rw [BitVec.setWidth_setWidth_of_le _ htw, BitVec.setWidth_eq]
    rw [encodeAt, decodeAt, decodePtr_packPtr_ret, consumeBits_mod n hi, hsymbol]
  | invalid0 n => rw [encodeAt, decodeAt, decodePtr_packPtr_invalid0, consumeBits_mod n hi]
  | invalid3 n => rw [encodeAt, decodeAt, decodePtr_packPtr_invalid3, consumeBits_mod n hi]
  | new | decode | flush | aligned => rfl

/-! ### Encode of decode -/

/-- The reserved bits of a pointer word are zero: those above the symbol in a Return (30 R85), the whole of `target` in
an invalid kind (log entry 9), none in a Descend. -/
def ReservedZero {tw : Nat} (w : BitVec (tw + 8)) : Prop :=
  ptrKind w = kindDescend ∨ (ptrKind w = kindReturn ∧ ptrReserved w = 0) ∨
    ((ptrKind w = kindInvalid0 ∨ ptrKind w = kindInvalid3) ∧ ptrTarget w = 0#tw)

theorem encodeAt_decodePtr {tw : Nat} (w : BitVec (tw + 8)) (h : ReservedZero w) :
    encodeAt tw (decodePtr w) = .ptr w := by
  have fields := packPtr_fields w
  obtain hk | ⟨hk, hreserved⟩ | ⟨hk | hk, htarget⟩ := h
  · rw [decodePtr_descend w hk, encodeAt, ptrOffset, BitVec.ofInt_toInt, ← hk, fields]
  · rw [decodePtr_ret w hk, encodeAt, setWidth_ptrSymbol w hreserved, ← hk, fields]
  · rw [decodePtr_invalid0 w hk, encodeAt, ← htarget, ← hk, fields]
  · rw [decodePtr_invalid3 w hk, encodeAt, ← htarget, ← hk, fields]

/-- Settles O1: the decoder's branch for each tag, and the two round trips. -/
theorem pointerEncodeDecodeAgree : Obligations.PointerEncodeDecodeAgree := by
  intro tw htw
  refine ⟨fun w => ⟨decodePtr_descend w, fun hk => ?_, decodePtr_invalid0 w, decodePtr_invalid3 w⟩,
    fun i _ hi => instructionEncodeDecodeAgree tw i htw hi, encodeAt_decodePtr⟩
  rw [← ptrSymbol_eq_extractLsb' w htw]
  exact decodePtr_ret w hk

/-! ### The rows of the opcode table -/

/-- The two bits that name an instruction: the tag of a pointer word (30 R82), the operation code of a command
(30 R87). -/
def Instr.code : Instr → BitVec 2
  | .descend _ _ => kindDescend
  | .ret _ _ => kindReturn
  | .invalid0 _ => kindInvalid0
  | .invalid3 _ => kindInvalid3
  | .new _ => 0b00#2
  | .decode _ _ => 0b01#2
  | .flush _ => 0b10#2
  | .aligned => 0b11#2

theorem code_decodePtr {tw : Nat} (w : BitVec (tw + 8)) : (decodePtr w).code = ptrKind w := by
  rcases kind_cases (ptrKind w) with h | h | h | h
  · rw [decodePtr_descend w h, h, Instr.code]
  · rw [decodePtr_ret w h, h, Instr.code]
  · rw [decodePtr_invalid0 w h, h, Instr.code]
  · rw [decodePtr_invalid3 w h, h, Instr.code]

/-- The mask of the four pointer rows selects the tag. -/
theorem and_tagMask_eq_iff {tw : Nat} (w : BitVec (tw + 8)) (k : BitVec 2) :
    w &&& 0xC0#(tw + 8) = BitVec.ofNat (tw + 8) (k.toNat * 64) ↔ ptrKind w = k := by
  have hwidth : 256 ≤ 2 ^ (tw + 8) := Nat.pow_le_pow_right Nat.two_pos (Nat.le_add_left 8 tw)
  have hmasked : w.toNat &&& 0xC0 = (ptrKind w).toNat * 64 := by
    rw [← Laws.packPtr_masked (ptrTarget w) (ptrKind w) (ptrConsumeBits w), packPtr_fields]
  have hmask : 0xC0 < 2 ^ (tw + 8) := by omega
  have hmatch : k.toNat * 64 < 2 ^ (tw + 8) := by have := k.isLt; omega
  rw [← BitVec.toNat_inj, ← BitVec.toNat_inj, BitVec.toNat_and, BitVec.toNat_ofNat, BitVec.toNat_ofNat,
    Nat.mod_eq_of_lt hmask, Nat.mod_eq_of_lt hmatch, hmasked]
  omega

section
variable {tw : Nat} (w : BitVec (tw + 8))

theorem ptrKind_eq_descend_iff : ptrKind w = kindDescend ↔ ∃ n offset, decodePtr w = .descend n offset := by
  refine ⟨fun h => ⟨_, _, decodePtr_descend w h⟩, ?_⟩
  rintro ⟨n, offset, h⟩
  rw [← code_decodePtr, h, Instr.code]

theorem ptrKind_eq_return_iff : ptrKind w = kindReturn ↔ ∃ n symbol, decodePtr w = .ret n symbol := by
  refine ⟨fun h => ⟨_, _, decodePtr_ret w h⟩, ?_⟩
  rintro ⟨n, symbol, h⟩
  rw [← code_decodePtr, h, Instr.code]

theorem ptrKind_eq_invalid0_iff : ptrKind w = kindInvalid0 ↔ ∃ n, decodePtr w = .invalid0 n := by
  refine ⟨fun h => ⟨_, decodePtr_invalid0 w h⟩, ?_⟩
  rintro ⟨n, h⟩
  rw [← code_decodePtr, h, Instr.code]

theorem ptrKind_eq_invalid3_iff : ptrKind w = kindInvalid3 ↔ ∃ n, decodePtr w = .invalid3 n := by
  refine ⟨fun h => ⟨_, decodePtr_invalid3 w h⟩, ?_⟩
  rintro ⟨n, h⟩
  rw [← code_decodePtr, h, Instr.code]

end

section
variable (q : Request)

theorem decodeCmd_new (h : q.op = 0b00#2) : decodeCmd q = .new q.coding := by simp [decodeCmd, h]

theorem decodeCmd_decode (h : q.op = 0b01#2) : decodeCmd q = .decode q.dstCap q.src := by simp [decodeCmd, h]

theorem decodeCmd_flush (h : q.op = 0b10#2) : decodeCmd q = .flush q.dstCap := by simp [decodeCmd, h]

theorem decodeCmd_aligned (h : q.op = 0b11#2) : decodeCmd q = .aligned := by simp [decodeCmd, h]

theorem code_decodeCmd : (decodeCmd q).code = q.op := by
  rcases kind_cases q.op with h | h | h | h
  · exact (congrArg Instr.code (decodeCmd_decode q h)).trans h.symm
  · exact (congrArg Instr.code (decodeCmd_flush q h)).trans h.symm
  · exact (congrArg Instr.code (decodeCmd_new q h)).trans h.symm
  · exact (congrArg Instr.code (decodeCmd_aligned q h)).trans h.symm

/-- The mask of a command row keeps the whole code, and the code of what is decoded is the one presented. -/
theorem op_masked_eq_code_iff (i : Instr) (decoded : q.op = i.code → decodeCmd q = i) :
    q.op &&& 0b11#2 = i.code ↔ decodeCmd q = i := by
  have masked : q.op &&& 0b11#2 = q.op := BitVec.and_allOnes
  rw [masked]
  exact ⟨decoded, fun h => by rw [← code_decodeCmd, h]⟩

end

/-- Settles O3: a row's mask leaves the tag or the operation code, and that names the instruction decoded. -/
theorem tableRowsByMaskAndMatch : Obligations.TableRowsByMaskAndMatch :=
  ⟨fun _ w _ =>
    ⟨(and_tagMask_eq_iff w kindDescend).trans (ptrKind_eq_descend_iff w),
      (and_tagMask_eq_iff w kindReturn).trans (ptrKind_eq_return_iff w),
      (and_tagMask_eq_iff w kindInvalid0).trans (ptrKind_eq_invalid0_iff w),
      (and_tagMask_eq_iff w kindInvalid3).trans (ptrKind_eq_invalid3_iff w)⟩,
    fun q =>
    ⟨op_masked_eq_code_iff q (.new q.coding) (decodeCmd_new q),
      op_masked_eq_code_iff q (.decode q.dstCap q.src) (decodeCmd_decode q),
      op_masked_eq_code_iff q (.flush q.dstCap) (decodeCmd_flush q),
      op_masked_eq_code_iff q .aligned (decodeCmd_aligned q)⟩⟩

/-! ### Words of the spec -/

/-- Settles O4, by running the decoder. -/
theorem wordsOfTheSpecDecode : Obligations.WordsOfTheSpecDecode :=
  ⟨rfl, rfl, rfl, rfl, rfl, rfl, rfl, rfl, rfl, rfl, rfl⟩

/-! ### Pseudo-instructions -/

theorem bitsValue_append_bit (bits : List Bool) (b : Bool) :
    bitsValue (bits ++ [b]) = 2 * bitsValue bits + b.toNat := by
  rw [bitsValue, List.foldl_append]
  rfl

theorem bitsValue_lt (bits : List Bool) : bitsValue bits < 2 ^ bits.length := by
  induction bits using List.reverseRecOn with
  | nil => decide
  | append_singleton bits b ih =>
    have hb := b.toNat_lt
    rw [bitsValue_append_bit, List.length_append, List.length_singleton, Nat.pow_succ]
    omega

theorem mem_prefixSlots_iff (t : Nat) (bits : List Bool) (s : Nat) :
    s ∈ prefixSlots t bits ↔ s / 2 ^ (t - bits.length) = bitsValue bits := by
  have hpos : 0 < 2 ^ (t - bits.length) := Nat.two_pow_pos _
  simp only [prefixSlots, List.mem_map, List.mem_range]
  constructor
  · rintro ⟨k, hk, rfl⟩
    rw [Nat.mul_comm, Nat.mul_add_div hpos, Nat.div_eq_of_lt hk, Nat.add_zero]
  · intro h
    exact ⟨s % 2 ^ (t - bits.length), Nat.mod_lt s hpos, by rw [← h, Nat.div_add_mod']⟩

theorem lt_of_mem_prefixSlots (t : Nat) (bits : List Bool) (hc : bits.length ≤ t) (s : Nat)
    (hs : s ∈ prefixSlots t bits) : s < 2 ^ t := by
  have hprefix := (mem_prefixSlots_iff t bits s).1 hs
  rw [← Nat.add_sub_cancel' hc, Nat.pow_add, ← Nat.div_lt_iff_lt_mul (Nat.two_pow_pos _), hprefix]
  exact bitsValue_lt bits

theorem prefixSlots_length (t : Nat) (bits : List Bool) : (prefixSlots t bits).length = 2 ^ (t - bits.length) := by
  rw [prefixSlots, List.length_map, List.length_range]

theorem prefixSlots_nodup (t : Nat) (bits : List Bool) : (prefixSlots t bits).Nodup :=
  List.nodup_range.map (add_right_injective _)

/-- Settles O5: the slots are those whose high bits are the bits given, and each line expands over them. -/
theorem pseudoInstructionsFillPrefixSlots : Obligations.PseudoInstructionsFillPrefixSlots := by
  intro t bits hc
  have hslots : ∀ s, s ∈ prefixSlots t bits ↔ s < 2 ^ t ∧ s / 2 ^ (t - bits.length) = bitsValue bits := fun s =>
    ⟨fun hs => ⟨lt_of_mem_prefixSlots t bits hc s hs, (mem_prefixSlots_iff t bits s).1 hs⟩,
      fun ⟨_, hprefix⟩ => (mem_prefixSlots_iff t bits s).2 hprefix⟩
  exact ⟨hslots, prefixSlots_length t bits, prefixSlots_nodup t bits, fun _ => rfl, fun _ => rfl, rfl⟩

end Sys2Proof
end

section
/-! The bit accumulator (40) under one operation: REFILL and REFILL_ALL put bytes in at the low end, SELECT reads the
top of the valid window, and STALLCHK comes before everything a pointer does. -/

namespace Sys2Proof.Machine

/-! ### REFILL and CONSUME -/

/-- Settles O6: the shifted word with the byte below it is the number modulo `2^32`. -/
theorem refillShiftsOneByteIn : Obligations.RefillShiftsOneByteIn := by
  intro s r b hr
  have hheld : (s.refill b).heldBits = BitVec.ofNat 32 (s.heldBits.toNat * 256 + b.toNat) := by
    apply BitVec.eq_of_toNat_eq
    rw [State.refill_heldBits_toNat, BitVec.toNat_ofNat]
  have hrun : (s.refill b).run = some { r with nSrc := r.nSrc + 1 } := by rw [State.refill_run, hr]; rfl
  rw [← hheld, ← hrun]
  rfl

/-- Settles O7: the room test and STALLCHK bound the count, and the window keeps what the two operations leave of it. -/
theorem accumulatorDropsNoValidBit : Obligations.AccumulatorDropsNoValidBit := by
  refine ⟨fun _ _ => rfl, ?_, ?_⟩
  · intro s b hroom
    rw [State.hasRoom_iff] at hroom
    refine ⟨rfl, ?_, s.refill_window b hroom⟩
    rw [State.refill_heldCount]
    omega
  · intro s n h32 hn
    have hcovered : n ≤ s.heldCount := Nat.not_lt.1 (of_decide_eq_false hn)
    rw [State.consume_heldCount]
    exact ⟨by omega, Nat.sub_add_cancel hcovered, (s.consume_window n).symm⟩

/-! ### REFILL_ALL -/

theorem State.refillAll_eq_foldl (bytes : List Byte) : ∀ s : State,
    State.refillAll bytes s = (bytes.take ((32 - s.heldCount) / 8)).foldl State.refill s := by
  induction bytes with
  | nil => intro s; rw [List.take_nil]; rfl
  | cons b rest ih =>
    intro s
    by_cases hroom : s.hasRoom = true
    · have hcount : (32 - s.heldCount) / 8 = (32 - (s.refill b).heldCount) / 8 + 1 := by
        rw [State.hasRoom_iff] at hroom
        rw [State.refill_heldCount]
        omega
      rw [State.refillAll, if_pos hroom, ih, hcount, List.take_succ_cons, List.foldl_cons]
    · have hcount : (32 - s.heldCount) / 8 = 0 := by rw [State.hasRoom_iff] at hroom; omega
      rw [State.refillAll, if_neg hroom, hcount, List.take_zero, List.foldl_nil]

/-- Settles O8: each byte ingested takes one from the number of bytes that still fit. -/
theorem refillAllIngestsWhatFits : Obligations.RefillAllIngestsWhatFits := by
  intro s bytes _
  refine ⟨State.refillAll_eq_foldl bytes s, ?_⟩
  obtain ⟨n, _, hn, e, _⟩ := State.refillAll_spec bytes s
  rw [e, ← hn]

/-! ### SELECT -/

theorem selector_lt (t : Nat) (heldBits : AccWord) (h : Nat) (ht : t ≤ 32) : selector t heldBits h < 2 ^ t := by
  unfold selector
  split <;> rw [toNat_and_mask _ _ ht] <;> exact Nat.mod_lt _ (Nat.two_pow_pos t)

/-- Settles O9: the two branches of SELECT, and its mask. -/
theorem selectorIsTopOfWindow : Obligations.SelectorIsTopOfWindow := by
  intro t heldBits h _ ht _
  have hwindow := selector_eq_window t heldBits h (by omega)
  refine ⟨fun hle => ?_, fun hlt => ?_, selector_lt t heldBits h (by omega)⟩
  · rw [hwindow, if_pos hle]
  · rw [hwindow, if_neg (Nat.not_le.2 hlt)]

/-- Settles O10: SELECT is a function of the count and the window. -/
theorem selectorIgnoresStaleBits : Obligations.SelectorIgnoresStaleBits := by
  intro t heldBits heldBits' h ht _ hw
  rw [selector_eq_window t heldBits h (by omega), selector_eq_window t heldBits' h (by omega), hw]

/-! ### STALLCHK -/

theorem State.setPhase_of_run (s : State) (r : Run) (hr : s.run = some r) (p : Phase) :
    s.setPhase p = { s with run := some { r with phase := p } } := by
  rw [State.setPhase, hr]
  rfl

/-- Settles O12: STALLCHK comes before the dispatch, so the kind does not matter. -/
theorem stalledPointerChangesNothing : Obligations.StalledPointerChangesNothing := by
  intro s c r n offset symbol he hn
  obtain ⟨_, hr, _⟩ := (s.extraction_eq_some c r).1 he
  have stalled (dispatch : Coding → State → State) :
      takePointer n dispatch s = .next { s with run := some { r with phase := .needInput } } := by
    rw [takePointer_stall n dispatch s c r he hn, s.setPhase_of_run r hr]
  exact ⟨(exec_descend_eq n offset s).trans (stalled _), (exec_ret_eq n symbol s).trans (stalled _),
    (exec_invalid0_eq n s).trans (stalled _), (exec_invalid3_eq n s).trans (stalled _)⟩

end Sys2Proof.Machine
end

section
/-! The accumulator over the commands since a `NEW` (40 R118, R120): it holds the bytes ingested so far as one
big-endian number modulo `2^32`, and counts no more bits than were ingested. -/

namespace Sys2Proof

/-! ### Bytes as a number -/

theorem bytesValue_lt (l : List Byte) : bytesValue l < 256 ^ l.length := by
  induction l with
  | nil => decide
  | cons b l ih =>
    have hb : (b.toNat + 1) * 256 ^ l.length ≤ 256 * 256 ^ l.length := Nat.mul_le_mul_right _ b.isLt
    rw [bytesValue_cons, List.length_cons, Nat.pow_succ']
    linarith

theorem bytesValue_eq_zero_iff (l : List Byte) : bytesValue l = 0 ↔ ∀ b ∈ l, b = 0#8 := by
  induction l with
  | nil => simp [bytesValue]
  | cons b l ih =>
    have hb : b.toNat = 0 ↔ b = 0#8 := by rw [← BitVec.toNat_inj]; rfl
    simp [bytesValue_cons, ih, hb]

/-- The last four bytes are the low 32 bits. -/
theorem bytesValue_mod_word (l : List Byte) : bytesValue l % 2 ^ 32 = bytesValue (l.drop (l.length - 4)) := by
  have hsplit := bytesValue_append (l.take (l.length - 4)) (l.drop (l.length - 4))
  have hlow := bytesValue_lt (l.drop (l.length - 4))
  rw [List.take_append_drop] at hsplit
  rw [List.length_drop] at hsplit hlow
  by_cases hl : 4 ≤ l.length
  · rw [show l.length - (l.length - 4) = 4 by omega] at hsplit hlow
    omega
  · have hle : 256 ^ (l.length - (l.length - 4)) ≤ 256 ^ 4 := Nat.pow_le_pow_right (by decide) (by omega)
    rw [show l.length - 4 = 0 by omega] at hlow hle ⊢
    rw [List.drop_zero] at hlow ⊢
    omega

namespace Machine

/-! ### What the accumulator holds -/

/-- The accumulator of a Decoder that has ingested these bytes since its `NEW`. -/
structure State.Holds (s : State) (ingested : List Byte) : Prop where
  value : s.heldBits.toNat = bytesValue ingested % 2 ^ 32
  count_le : s.heldCount ≤ 8 * ingested.length
  count_le_word : s.heldCount ≤ 32

/-- Whatever leaves `heldBits` and does not raise `heldCount` keeps it. -/
theorem State.Holds.of_le {s t : State} {ingested : List Byte} (h : s.Holds ingested) (hbits : t.heldBits = s.heldBits)
    (hcount : t.heldCount ≤ s.heldCount) : t.Holds ingested :=
  ⟨hbits ▸ h.value, hcount.trans h.count_le, hcount.trans h.count_le_word⟩

theorem State.construct_holds (s : State) (c : Coding) : (s.construct c).Holds [] :=
  ⟨rfl, Nat.le_refl 0, Nat.zero_le 32⟩

theorem State.Holds.heldBits_eq_zero_iff {s : State} {ingested : List Byte} (h : s.Holds ingested) :
    s.heldBits = 0#32 ↔ ∀ b ∈ ingested.drop (ingested.length - 4), b = 0#8 := by
  rw [← bytesValue_eq_zero_iff, ← bytesValue_mod_word, ← h.value, ← BitVec.toNat_inj]
  rfl

theorem State.Holds.window_eq {s : State} {ingested : List Byte} (h : s.Holds ingested) :
    s.window = bytesValue ingested % 2 ^ s.heldCount := by
  rw [State.window, h.value, Nat.mod_mod_of_dvd _ (Nat.pow_dvd_pow 2 h.count_le_word)]

/-- REFILL_ALL ingests the first `n` of the bytes left, for the `n` by which it moves the cursor. -/
theorem State.Holds.refillAll {s : State} {ingested : List Byte} (h : s.Holds ingested) (bytes : List Byte) :
    ∃ n, (State.refillAll bytes s).run = s.run.map (fun r => { r with nSrc := r.nSrc + n }) ∧
      (State.refillAll bytes s).Holds (ingested ++ bytes.take n) := by
  obtain ⟨hvalue, hcount, hword⟩ := h
  obtain ⟨n, hb, hn, e, hheld⟩ := State.refillAll_spec bytes s
  have hlen : (bytes.take n).length = n := by rw [List.length_take]; omega
  rw [e]
  refine ⟨n, rfl, ?_, ?_, ?_⟩
  · change hb.toNat = _
    rw [hheld, hvalue, bytesValue_append, hlen, Nat.add_mod, Nat.mod_mul_mod, ← Nat.add_mod]
  · change s.heldCount + 8 * n ≤ _
    rw [List.length_append, hlen]
    omega
  · change s.heldCount + 8 * n ≤ 32
    omega

/-! ### A command in progress -/

/-- A DECODE or FLUSH given `src`, on a Decoder that had ingested `past` when it began: in progress, answered or ended
by a fault. Until a fault the accumulator holds `past` and what the command ingested of `src`. -/
inductive State.Ingesting (past src : List Byte) (s : State) : Prop where
  | running (r : Run) (hr : s.run = some r) (hsrc : r.src = src) (hflush : r.kind = .flush → src = [])
      (held : s.Holds (past ++ src.take r.nSrc))
  | answered (flag : Bool) (nDst nSrc : Nat) (hr : s.run = none) (answer : s.response = some (.ok flag nDst nSrc))
      (held : s.Holds (past ++ src.take nSrc))
  | faulted (hr : s.run = none) (answer : s.response = some .fault)

theorem State.Holds.respond_ingesting {s : State} {past : List Byte} {r : Run}
    (held : s.Holds (past ++ r.src.take r.nSrc)) (hflush : r.kind = .flush → r.src = []) : (s.respond (s.runResponse r)).Ingesting past r.src := by
  match hk : r.kind with
  | .decode =>
    exact .answered false s.dst.length r.nSrc rfl (by simp [State.runResponse, hk]) (held.of_le rfl (Nat.le_refl _))
  | .flush =>
    have hsrc := hflush hk
    rw [hsrc, List.take_nil] at held
    refine .answered s.alignedFlag s.dst.length 0 rfl (by simp [State.runResponse, hk]) ?_
    exact held.of_le rfl (Nat.le_refl _)

theorem MicroStep.ingesting {s : State} {c : Coding} {r : Run} {t : State} {past : List Byte} (h : MicroStep s c r t)
    (hr : s.run = some r) (hflush : r.kind = .flush → r.src = []) (held : s.Holds (past ++ r.src.take r.nSrc)) :
    t.Ingesting past r.src := by
  cases h with
  | full =>
    exact .running (r.inPhase .dstFull) (by simp [hr]) rfl hflush (held.of_le rfl (Nat.le_refl _))
  | stall =>
    exact .running (r.inPhase .needInput) (by simp [hr]) rfl hflush (held.of_le rfl (Nat.le_refl _))
  | descend | ret => exact .running r hr rfl hflush (held.of_le rfl (Nat.sub_le _ _))
  | corrupt => exact .faulted rfl rfl
  | respond => exact held.respond_ingesting hflush
  | refill =>
    obtain ⟨n, hrun, hheld⟩ := held.refillAll (r.src.drop r.nSrc)
    rw [List.append_assoc, ← List.take_add] at hheld
    refine .running { r with nSrc := r.nSrc + n, phase := .extract } ?_ rfl hflush (hheld.of_le rfl (Nat.le_refl _))
    rw [State.setPhase_run, hrun, hr]
    rfl

theorem microStep_ingesting (past src : List Byte) (s t : State) (hc : s.coding ≠ none) (hs : s.Ingesting past src)
    (h : microStep s = .next t) : t.Ingesting past src := by
  obtain ⟨c, hc⟩ := Option.ne_none_iff_exists'.1 hc
  match hr : s.run with
  | none =>
    obtain rfl : s = t := by simpa [microStep_idle s hr] using h
    exact hs
  | some r =>
    cases hs with
    | running r' hr' hsrc hflush held =>
      obtain rfl : r = r' := Option.some.inj (hr.symm.trans hr')
      subst hsrc
      exact (microStep_inversion s c r hc hr t h).ingesting hr hflush held
    | answered _ _ _ hidle | faulted hidle => simp [hr] at hidle

/-- DECODE or FLUSH, answered without a fault: the accumulator holds the bytes it says it ingested after those before. -/
theorem onConstructed_holds (past src : List Byte) (s t : State) (kind : RunKind) (dstCap : Nat)
    (hflush : kind = .flush → src = []) (hs : s.Holds past)
    (h : onConstructed s (runToEnd (s.startRun kind dstCap src)) = .next t) (flag : Bool) (nDst nSrc : Nat)
    (answer : t.response = some (.ok flag nDst nSrc)) : t.Holds (past ++ src.take nSrc) := by
  obtain ⟨_, hc, ⟨_, rfl⟩ | ⟨_, hrun⟩⟩ := onConstructed_next s t _ h
  · simp at answer
  have begun : (s.startRun kind dstCap src).Ingesting past src := by
    refine .running _ rfl rfl hflush ?_
    rw [List.take_zero, List.append_nil]
    exact hs.of_le rfl (Nat.le_refl _)
  obtain ⟨⟨_, hend⟩, hidle⟩ := runCommand_keeps (fun u => u.coding = s.coding ∧ u.Ingesting past src)
    (fun u v hu huv => by
      obtain ⟨hcu, hu⟩ := hu
      have hcu' : u.coding ≠ none := hcu ▸ hc
      exact ⟨(microStep_frame u v hcu' huv).coding.trans hcu, microStep_ingesting past src u v hcu' hu huv⟩)
    _ (s.startRun kind dstCap src) t ⟨rfl, begun⟩ hrun
  cases hend with
  | running r hr => simp [hidle] at hr
  | answered flag' nDst' nSrc' _ answer' held =>
    obtain ⟨_, _, rfl⟩ : flag' = flag ∧ nDst' = nDst ∧ nSrc' = nSrc := by simpa [answer'] using answer
    exact held
  | faulted _ answer' => simp [answer'] at answer

/-! ### All commands since the NEW -/

theorem History.holds {c : Coding} {ingested written : List Byte} {s : State} (h : History c ingested written s) :
    s.Holds ingested := by
  induction h with
  | new s t h =>
    obtain ⟨_, _, rfl⟩ := execNew_next c s t h
    exact (s.construct_holds c).of_le rfl (Nat.le_refl _)
  | decode ingested written s t dstCap src nDst nSrc _ h answer ih =>
    exact onConstructed_holds ingested src s t .decode dstCap (fun hk => by cases hk) ih h false nDst nSrc answer
  | flush ingested written s t dstCap finished nDst nSrc _ h answer ih =>
    have held := onConstructed_holds ingested [] s t .flush dstCap (fun _ => rfl) ih h finished nDst nSrc answer
    rwa [List.take_nil, List.append_nil] at held
  | aligned ingested written s t _ h ih =>
    obtain ⟨_, rfl⟩ := exec_aligned_next s t h
    exact ih.of_le rfl (Nat.le_refl _)

/-- Settles O44: only REFILL writes the accumulator, and of a number of bytes the low 32 bits are the last four. -/
theorem heldBitsAreTheLastFourBytes : Obligations.HeldBitsAreTheLastFourBytes :=
  fun _ _ _ _ h => ⟨h.holds.value, h.holds.heldBits_eq_zero_iff⟩

/-- Settles O46: the window is the low `heldCount` bits of the accumulator, which holds the bytes ingested. -/
theorem windowIsASuffixOfTheInput : Obligations.WindowIsASuffixOfTheInput :=
  fun _ _ _ _ h => ⟨h.holds.count_le, h.holds.count_le_word, h.holds.window_eq⟩

end Machine

end Sys2Proof
end

section
/-! The tree walker (41): what each pointer word does in an iteration of EXTRACT that covers its bits, why a lookup on
zero-padded bits finds the pointer that more bits would have found, and the bound on the iterations of EXTRACT. -/

namespace Sys2Proof.Machine

/-! ### One pointer word -/

theorem exec_pointer_eq_takePointer (i : Instr) (hi : i.isPointer = true) (s : State) :
    ∃ n dispatch, exec i s = takePointer n dispatch s := by
  cases i with
  | descend n offset => exact ⟨n, _, exec_descend_eq n offset s⟩
  | ret n symbol => exact ⟨n, _, exec_ret_eq n symbol s⟩
  | invalid0 n => exact ⟨n, _, exec_invalid0_eq n s⟩
  | invalid3 n => exact ⟨n, _, exec_invalid3_eq n s⟩
  | new | decode | flush | aligned => simp [Instr.isPointer] at hi

/-- Settles O16: every pointer word begins by asking for an extraction. -/
theorem pointerOutsideExtractRefused : Obligations.PointerOutsideExtractRefused := by
  intro s i hi hnone
  obtain ⟨n, dispatch, h⟩ := exec_pointer_eq_takePointer i hi s
  rw [h, takePointer_refused n dispatch s hnone]

/-- Settles O13: the dispatch of DESCEND runs after CONSUME. -/
theorem descendMovesByOffset : Obligations.DescendMovesByOffset := by
  intro s c r n offset he hn
  rw [exec_descend_eq, takePointer_taken n _ s c r he hn]
  rfl

/-- Settles O14: the dispatch of RETURN runs after CONSUME. -/
theorem returnWritesSymbolAndGoesToRoot : Obligations.ReturnWritesSymbolAndGoesToRoot := by
  intro s c r n symbol he hn
  rw [exec_ret_eq, takePointer_taken n _ s c r he hn]
  rfl

/-- An invalid kind whose bits are covered raises the exception with the node and selector of its lookup. -/
theorem takePointer_corruptAt (s : State) (c : Coding) (r : Run) (n : Nat) (kind : BitVec 2)
    (he : s.extraction = some (c, r)) (hn : n ≤ s.heldCount) :
    takePointer n (corruptAt s kind) s =
      .next ((s.consume n).raiseCodingCorrupt { treeIndex := s.treeIndex, sel := s.select c, kind := kind }) :=
  takePointer_taken n _ s c r he hn

/-- Settles O15: the two invalid kinds differ only in the kind that the exception carries. -/
theorem invalidKindRaisesCodingCorrupt : Obligations.InvalidKindRaisesCodingCorrupt := by
  intro s c r n he hn
  refine ⟨⟨_, (exec_invalid0_eq n s).trans (takePointer_corruptAt s c r n _ he hn), ?_⟩,
    ⟨_, (exec_invalid3_eq n s).trans (takePointer_corruptAt s c r n _ he hn), ?_⟩⟩
  · simp [FaultCause.code, kindInvalid0]
  · simp [FaultCause.code, kindInvalid3]

/-- Settles O38: the capacity test passes, and LOOKUP answers the word. -/
theorem stepRunsTheWordLookedUp : Obligations.StepRunsTheWordLookedUp := by
  intro s c r w he hl
  obtain ⟨hc, hr, _, hp, hd⟩ := (s.extraction_eq_some c r).1 he
  rw [step_inside s (by simp [hr]), microStep_lookup s c r w hc hr hp hd hl]

/-! ### A lookup on zero-padded bits -/

/-- The top `n` bits of a selector are the top `n` bits of the window, where both have so many. -/
theorem selector_div_pow (t n h : Nat) (heldBits : AccWord) (ht : t ≤ 32) (hnt : n ≤ t) (hnh : n ≤ h) :
    selector t heldBits h / 2 ^ (t - n) = heldBits.toNat % 2 ^ h / 2 ^ (h - n) := by
  rw [selector_eq_window t heldBits h ht]
  split
  · have hsplit : h - n = (h - t) + (t - n) := by omega
    rw [hsplit, Nat.pow_add, Nat.div_div_eq_div_mul]
  · have hsplit : t - n = (h - n) + (t - h) := by omega
    rw [hsplit, Nat.pow_add, Nat.mul_div_mul_right _ _ (Nat.two_pow_pos _)]

/-- Bits held after the first `h` do not change the first `n` of a selector, `n` at most `h`. -/
theorem selector_div_pow_of_extends (t n h h' : Nat) (heldBits heldBits' : AccWord) (ht : t ≤ 32) (hnt : n ≤ t)
    (hnh : n ≤ h) (hh : h ≤ h') (hext : heldBits'.toNat % 2 ^ h' / 2 ^ (h' - h) = heldBits.toNat % 2 ^ h) :
    selector t heldBits h / 2 ^ (t - n) = selector t heldBits' h' / 2 ^ (t - n) := by
  have hsplit : h' - n = (h' - h) + (h - n) := by omega
  calc selector t heldBits h / 2 ^ (t - n)
      = heldBits.toNat % 2 ^ h / 2 ^ (h - n) := selector_div_pow t n h heldBits ht hnt hnh
    _ = heldBits'.toNat % 2 ^ h' / 2 ^ (h' - n) := by rw [← hext, Nat.div_div_eq_div_mul, ← Nat.pow_add, ← hsplit]
    _ = selector t heldBits' h' / 2 ^ (t - n) := (selector_div_pow t n h' heldBits' ht hnt (hnh.trans hh)).symm

/-- Settles O11: the two selectors agree in the bits that the pointer consumes, so replication makes their pointers
equal. -/
theorem speculativeLookupIsSafe : Obligations.SpeculativeLookupIsSafe := by
  intro c node h h' heldBits heldBits' hwf hrep hnode hh _ hext hn
  obtain ⟨_, _, _, ht⟩ := c.WF2_of_wf hwf
  have hslot (x : AccWord) (k : Nat) : selector c.treeShift x k < c.slots := selector_lt _ x k (by omega)
  obtain ⟨hnt, _⟩ := (c.pointerOk_iff _ _).1 (c.pointerOk_of_wf hwf node _ (hslot heldBits h))
  exact (hrep node _ _ hnode (hslot heldBits h) (hslot heldBits' h')
    (selector_div_pow_of_extends _ _ h h' heldBits heldBits' (by omega) hnt hn hh hext)).symm

/-! ### The iterations of EXTRACT -/

/-- EXTRACT has stopped, or the command has ended. -/
def State.ExtractStopped (s : State) : Prop := ∀ r, s.run = some r → r.phase ≠ .extract

/-- An iteration of EXTRACT stops it or leaves the command in progress as it is. -/
theorem MicroStep.extractStopped_or_run_eq {s : State} {c : Coding} {r : Run} {t : State} (h : MicroStep s c r t)
    (hp : r.phase = .extract) : t.ExtractStopped ∨ t.run = s.run := by
  have setPhase_stops (p : Phase) (hne : p ≠ .extract) : (s.setPhase p).ExtractStopped := by
    intro r' hr'
    rw [State.setPhase_run, Option.map_eq_some_iff] at hr'
    obtain ⟨_, _, rfl⟩ := hr'
    exact hne
  cases h with
  | full => exact .inl (setPhase_stops .dstFull (by decide))
  | stall => exact .inl (setPhase_stops .needInput (by decide))
  | descend => exact .inr rfl
  | ret => exact .inr rfl
  | corrupt | respond => exact .inl fun _ hr' => by simp at hr'
  | refill hp' => simp [hp'] at hp

/-- The capacity left and the bits held: what 41 R138 counts down. Every iteration of EXTRACT that goes on uses up some. -/
def State.extractWork (s : State) (r : Run) : Nat := (r.dstCap - s.dst.length) + s.heldCount

theorem State.work_of_extract (s : State) (r : Run) (hr : s.run = some r) (hp : r.phase = .extract) :
    s.work = s.extractWork r + 10 * (r.src.length - r.nSrc) + 2 := by
  simp only [State.work, State.extractWork, hr, hp, Phase.weight]
  omega

/-- One step of a machine in EXTRACT that meets the invariant. -/
theorem step_extract_of_inv (s : State) (r : Run) (hs : s.Inv) (hr : s.run = some r) (hp : r.phase = .extract) :
    ∃ t, step s = .next t ∧ t.Inv ∧ (t.ExtractStopped ∨ (t.run = some r ∧ t.extractWork r < s.extractWork r)) := by
  have hin : s.run ≠ none := by simp [hr]
  obtain ⟨t, ht, hinv, hwork⟩ := microStep_keeps_inv s hs hin
  obtain ⟨_, _, _, _, hrun⟩ := hs
  obtain ⟨hsome, _⟩ := hrun r hr
  obtain ⟨c, hc⟩ := Option.isSome_iff_exists.1 hsome
  refine ⟨t, by rw [step_inside s hin, ht], hinv, ?_⟩
  refine ((microStep_inversion s c r hc hr t ht).extractStopped_or_run_eq hp).imp_right fun hrun_eq => ?_
  have hr' : t.run = some r := hrun_eq.trans hr
  rw [s.work_of_extract r hr hp, t.work_of_extract r hr' hp] at hwork
  exact ⟨hr', by omega⟩

theorem core_run_succ (n : Nat) (s t : State) (h : step s = .next t) :
    Host.Core.run core (n + 1) s = Host.Core.run core n t := by
  have hcore : core.step s = .next t := h
  simp only [Host.Core.run, hcore]

theorem extract_stops_within (r : Run) (hp : r.phase = .extract) : ∀ (bound : Nat) (s : State), s.Inv → s.run = some r →
    s.extractWork r < bound →
    ∃ (n : Nat) (t : State), n ≤ bound ∧ Host.Core.run core n s = .next t ∧ t.ExtractStopped := by
  intro bound
  induction bound with
  | zero => exact fun s _ _ hlt => absurd hlt (Nat.not_lt_zero _)
  | succ bound ih =>
    intro s hs hr hlt
    obtain ⟨t, ht, hinv, hstop | ⟨hr', hless⟩⟩ := step_extract_of_inv s r hs hr hp
    · exact ⟨1, t, by omega, core_run_succ 0 s t ht, hstop⟩
    · obtain ⟨n, u, hn, hu, hstop⟩ := ih t hinv hr' (by omega)
      exact ⟨n + 1, u, by omega, (core_run_succ n s t ht).trans hu, hstop⟩

/-- Settles O19, by the capacity left and the bits held. -/
theorem extractEndsWithinItsBound : Obligations.ExtractEndsWithinItsBound := by
  intro s r hs hr hp
  exact extract_stops_within r hp (s.extractWork r + 1) s hs hr (Nat.lt_succ_self _)

end Sys2Proof.Machine
end

section
/-! DECODE and FLUSH from their first micro-step to their answer (42 R162, R170): why EXTRACT stopped, what the counts
of the answer then mean, and that a Decoder that stopped for want of input can do nothing more without it. -/

namespace Sys2Proof.Machine

/-! ### What is known while a command runs -/

/-- The next lookup finds a pointer that asks for more bits than are held (40 R113). -/
def State.Stalled (s : State) (c : Coding) : Prop :=
  ∃ w, c.tblRead s.treeIndex (s.select c) = some w ∧ s.heldCount < ptrConsumeBits w

/-- The answer of a DECODE or FLUSH that ended without a fault, with `nSrc` bytes ingested. -/
def RunKind.answer (kind : RunKind) (s : State) (nSrc : Nat) : Response :=
  match kind with
  | .decode => .ok false s.dst.length nSrc
  | .flush => .ok s.alignedFlag s.dst.length 0

theorem RunKind.dst_length_of_answer {kind : RunKind} {s : State} {k nDst nSrc : Nat} {flag : Bool}
    (h : kind.answer s k = .ok flag nDst nSrc) : s.dst.length = nDst := by
  cases kind with
  | decode | flush =>
    obtain ⟨_, hdst, _⟩ := Response.ok.inj h
    exact hdst

theorem State.runResponse_eq_answer (s : State) (r : Run) : s.runResponse r = r.kind.answer s r.nSrc := by
  unfold State.runResponse RunKind.answer
  cases r.kind <;> rfl

/-- A command keeps within its operands, and FLUSH, begun with `count` bits held, ingests nothing. -/
def State.WithinOperands (s : State) (kind : RunKind) (dstCap : Nat) (src : List Byte) (count nSrc : Nat) : Prop :=
  s.dst.length ≤ dstCap ∧ nSrc ≤ src.length ∧ (kind = .flush → s.heldCount ≤ count)

/-- A command ended without a fault: its answer, and the two reasons for which EXTRACT is not run again. -/
structure State.Answered (s : State) (c : Coding) (kind : RunKind) (dstCap : Nat) (src : List Byte)
    (count nSrc : Nat) : Prop where
  fault : s.fault = false
  response : s.response = some (kind.answer s nSrc)
  within : s.WithinOperands kind dstCap src count nSrc
  stop : dstCap ≤ s.dst.length ∨ (s.Stalled c ∧ (kind = .flush ∨ src.length ≤ nSrc))

/-- A DECODE or FLUSH on the Coding `c`, begun with `count` bits held: in progress, answered, or ended by a fault. -/
inductive State.InCommand (c : Coding) (kind : RunKind) (dstCap : Nat) (src : List Byte) (count : Nat) (s : State) :
    Prop where
  | running (nSrc : Nat) (phase : Phase)
      (hr : s.run = some { kind := kind, dstCap := dstCap, src := src, nSrc := nSrc, phase := phase })
      (hc : s.coding = some c) (hf : s.fault = false) (within : s.WithinOperands kind dstCap src count nSrc)
      (stalled : phase = .needInput → s.Stalled c) (full : phase = .dstFull → dstCap ≤ s.dst.length)
  | answered (nSrc : Nat) (hr : s.run = none) (answer : s.Answered c kind dstCap src count nSrc)
  | faulted (hr : s.run = none) (hf : s.fault = true) (answer : s.response = some .fault)

section
variable {c : Coding} {kind : RunKind} {dstCap : Nat} {src : List Byte} {count : Nat}

theorem MicroStep.inCommand {s t : State} {nSrc : Nat} {phase : Phase}
    (h : MicroStep s c { kind := kind, dstCap := dstCap, src := src, nSrc := nSrc, phase := phase } t)
    (hr : s.run = some { kind := kind, dstCap := dstCap, src := src, nSrc := nSrc, phase := phase })
    (hc : s.coding = some c) (hf : s.fault = false) (within : s.WithinOperands kind dstCap src count nSrc)
    (stalled : phase = .needInput → s.Stalled c) (full : phase = .dstFull → dstCap ≤ s.dst.length) :
    t.InCommand c kind dstCap src count := by
  obtain ⟨hdst, hsrc, hcount⟩ := id within
  cases h with
  | full hp hd =>
    exact .running nSrc .dstFull (by rw [State.setPhase_run, hr]; rfl) hc hf within (fun hp => by cases hp) fun _ => hd
  | stall hp hd w hl hn =>
    exact .running nSrc .needInput (by rw [State.setPhase_run, hr]; rfl) hc hf within (fun _ => ⟨w, hl, hn⟩)
      fun hp => by cases hp
  | descend hp hd w hl hn hk =>
    obtain rfl : phase = .extract := hp
    exact .running nSrc .extract hr hc hf ⟨hdst, hsrc, fun hk => (Nat.sub_le _ _).trans (hcount hk)⟩
      (fun hp => by cases hp) fun hp => by cases hp
  | ret hp hd w hl hn hk =>
    obtain rfl : phase = .extract := hp
    refine .running nSrc .extract hr hc hf ⟨?_, hsrc, fun hk => (Nat.sub_le _ _).trans (hcount hk)⟩
      (fun hp => by cases hp) fun hp => by cases hp
    simpa using hd
  | corrupt => exact .faulted rfl rfl rfl
  | respond hp =>
    refine .answered nSrc rfl ⟨hf, by rw [State.runResponse_eq_answer]; rfl, within, ?_⟩
    exact hp.imp full fun ⟨hp, hk⟩ => ⟨stalled hp, hk⟩
  | refill hp hk hs =>
    obtain ⟨n, hb, hn, e, _⟩ := State.refillAll_spec (src.drop nSrc) s
    have hlt : nSrc < src.length := hs
    have hk : kind = .decode := hk
    rw [List.length_drop] at hn
    refine .running (nSrc + n) .extract ?_ ?_ ?_ ⟨?_, ?_, ?_⟩ (fun hp => by cases hp) fun hp => by cases hp
    · rw [State.setPhase_run, e, hr]; rfl
    · rw [e]; exact hc
    · rw [e]; exact hf
    · rw [e]; exact hdst
    · omega
    · simp [hk]

theorem microStep_inCommand (s t : State) (hs : s.InCommand c kind dstCap src count) (h : microStep s = .next t) :
    t.InCommand c kind dstCap src count := by
  cases id hs with
  | running nSrc phase hr hc hf within stalled full =>
    exact (microStep_inversion s c _ hc hr t h).inCommand hr hc hf within stalled full
  | answered _ hr | faulted hr =>
    obtain rfl : s = t := by simpa [microStep_idle s hr] using h
    exact hs

/-- What a DECODE or FLUSH answers on a constructed, unfaulted Decoder. -/
theorem onConstructed_answered (s t : State) (hc : s.coding = some c) (hf : s.fault = false)
    (h : onConstructed s (runToEnd (s.startRun kind dstCap src)) = .next t) :
    t.run = none ∧ ((t.fault = true ∧ t.response = some .fault) ∨
      ∃ nSrc, t.Answered c kind dstCap src s.heldCount nSrc) := by
  obtain ⟨_, _, ⟨hfaulted, _⟩ | ⟨_, hrun⟩⟩ := onConstructed_next s t _ h
  · simp [hf] at hfaulted
  have begun : (s.startRun kind dstCap src).InCommand c kind dstCap src s.heldCount :=
    .running 0 .extract rfl hc hf ⟨Nat.zero_le _, Nat.zero_le _, fun _ => Nat.le_refl _⟩ (fun hp => by cases hp)
      fun hp => by cases hp
  obtain ⟨hend, hidle⟩ := runCommand_keeps _ microStep_inCommand _ _ t begun hrun
  refine ⟨hidle, ?_⟩
  cases hend with
  | running _ _ hr => simp [hidle] at hr
  | answered nSrc _ answer => exact .inr ⟨nSrc, answer⟩
  | faulted _ hf answer => exact .inl ⟨hf, answer⟩

end

/-! ### Commands that stop at once -/

/-- A command whose first iteration of EXTRACT stops it, with nothing left to ingest where that matters. -/
theorem onConstructed_stops_at_once (s : State) (c : Coding) (kind : RunKind) (dstCap : Nat) (src : List Byte)
    (hs : s.ReadyFor c) (p : Phase) (hp : p = .dstFull ∨ (p = .needInput ∧ (kind = .flush ∨ src = [])))
    (h : MicroStep (s.startRun kind dstCap src) c
      { kind := kind, dstCap := dstCap, src := src, nSrc := 0, phase := .extract }
      ((s.startRun kind dstCap src).setPhase p)) :
    onConstructed s (runToEnd (s.startRun kind dstCap src)) =
      .next { s with dst := [], response := some (kind.answer { s with dst := [] } 0) } := by
  obtain ⟨hr, hc, hf⟩ := hs
  have hanswer : MicroStep ((s.startRun kind dstCap src).setPhase p) c
      { kind := kind, dstCap := dstCap, src := src, nSrc := 0, phase := p } _ :=
    .respond (hp.imp_right fun ⟨hp, hk⟩ => ⟨hp, hk.imp_right fun hsrc => by simp [hsrc]⟩)
  have hwork : ∃ n, (s.startRun kind dstCap src).work = n + 2 := ⟨_, rfl⟩
  obtain ⟨n, hn⟩ := hwork
  rw [onConstructed_ready s c _ hr hc hf, runToEnd, hn, runCommand_step _ _ _ (by simp) (h.microStep_eq hc rfl hf),
    runCommand_step _ _ _ (by simp) (hanswer.microStep_eq hc rfl hf), runCommand_idle _ _ rfl,
    State.runResponse_eq_answer]
  exact congrArg _ (State.respond_of_idle { s with dst := [] } hr _)

theorem onConstructed_noCapacity (s : State) (c : Coding) (kind : RunKind) (src : List Byte) (hs : s.ReadyFor c) :
    onConstructed s (runToEnd (s.startRun kind 0 src)) =
      .next { s with dst := [], response := some (kind.answer { s with dst := [] } 0) } :=
  onConstructed_stops_at_once s c kind 0 src hs .dstFull (.inl rfl) (.full rfl (Nat.le_refl 0))

/-- "The Decoder can do nothing more without input" (42 R164). -/
theorem onConstructed_stalled (s : State) (c : Coding) (kind : RunKind) (dstCap : Nat) (hs : s.ReadyFor c)
    (hstalled : s.Stalled c) :
    onConstructed s (runToEnd (s.startRun kind dstCap [])) =
      .next { s with dst := [], response := some (kind.answer { s with dst := [] } 0) } := by
  by_cases hcap : dstCap = 0
  · rw [hcap]
    exact onConstructed_noCapacity s c kind [] hs
  · obtain ⟨w, hl, hn⟩ := hstalled
    exact onConstructed_stops_at_once s c kind dstCap [] hs .needInput (.inr ⟨rfl, .inr rfl⟩)
      (.stall rfl (Nat.pos_of_ne_zero hcap) w hl hn)

/-! ### DECODE -/

/-- Settles O23: EXTRACT is not run again when `dst` is full, or when it stalled and `src` is used up. -/
theorem decodeCompletesWithItsCounts : Obligations.DecodeCompletesWithItsCounts := by
  intro s c dstCap src hs ⟨hr, hc, hf⟩
  obtain ⟨t, ht, _⟩ := exec_command_inv (.decode dstCap src) rfl (fun _ h => by cases h) s hs hr c hc
  have frame := exec_command_frame _ rfl (fun _ h => by cases h) s t ht
  have htc : t.coding = some c := frame.coding.trans hc
  obtain ⟨hidle, hend⟩ := onConstructed_answered s t hc hf ht
  refine ⟨t, ht, hidle, htc, frame.requests, hend.imp_right ?_⟩
  rintro ⟨nSrc, hft, hresponse, ⟨hdst, hsrc, _⟩, hstop⟩
  have hstop : dstCap ≤ t.dst.length ∨ (t.Stalled c ∧ src.length ≤ nSrc) := by simpa using hstop
  refine ⟨hft, nSrc, hresponse, hdst, hsrc, by omega, fun hlt => ⟨by omega, fun dstCap' => ?_⟩, by omega⟩
  obtain ⟨hstalled, _⟩ := hstop.resolve_left (by omega)
  exact onConstructed_stalled t c .decode dstCap' ⟨hidle, htc, hft⟩ hstalled

end Sys2Proof.Machine
end

section
/-! What FLUSH answers, that DECODE and FLUSH never fault on a Coding with no invalid kind, and the commands that run no
EXTRACT or stop it at once (42 R161 to R177). -/

namespace Sys2Proof.Machine

/-! ### FLUSH -/

/-- FLUSH's flag tests the word it began with, which it does not write (42 R170). -/
theorem exec_flush_answered (s t : State) (c : Coding) (dstCap : Nat) (hs : s.ReadyFor c)
    (h : exec (.flush dstCap) s = .next t) :
    t.run = none ∧ ((t.fault = true ∧ t.response = some .fault) ∨
      (t.fault = false ∧ t.heldBits = s.heldBits ∧ t.heldCount ≤ s.heldCount ∧ t.dst.length ≤ dstCap ∧
        t.response = some (.ok (s.heldBits == 0#32) t.dst.length 0))) := by
  obtain ⟨_, hc, hf⟩ := hs
  obtain ⟨hidle, hend⟩ := onConstructed_answered s t hc hf h
  refine ⟨hidle, hend.imp_right ?_⟩
  rintro ⟨nSrc, hft, hresponse, ⟨hdst, _, hcount⟩, _⟩
  have hheld := exec_flush_heldBits dstCap s t h hft
  exact ⟨hft, hheld, hcount rfl, hdst, hheld ▸ hresponse⟩

/-- Settles O27, by what FLUSH answers and the frame of a command. -/
theorem flushCompletesWithFinished : Obligations.FlushCompletesWithFinished := by
  intro s c dstCap hs hready
  obtain ⟨hr, hc, _⟩ := id hready
  obtain ⟨t, ht, _⟩ := exec_command_inv (.flush dstCap) rfl (fun _ h => by cases h) s hs hr c hc
  have frame := exec_command_frame _ rfl (fun _ h => by cases h) s t ht
  obtain ⟨hidle, hend⟩ := exec_flush_answered s t c dstCap hready ht
  exact ⟨t, ht, hidle, frame.coding.trans hc, frame.requests, hend⟩

/-- Settles O28: with room left EXTRACT stalled, and it stalls again at the same lookup. -/
theorem secondFlushWritesNothing : Obligations.SecondFlushWritesNothing := by
  intro s t dstCap dstCap' h hft hroom
  have frame := exec_command_frame _ rfl (fun _ h => by cases h) s t h
  obtain ⟨_, hsc, _⟩ := onConstructed_next s t _ (exec_flush_eq dstCap s ▸ h)
  obtain ⟨hf, _⟩ := frame.unfaulted hft
  obtain ⟨c, hc⟩ := Option.ne_none_iff_exists'.1 hsc
  obtain ⟨hidle, ⟨hfaulted, _⟩ | ⟨_, answered⟩⟩ := onConstructed_answered s t hc hf h
  · simp [hft] at hfaulted
  obtain ⟨hstalled, _⟩ := answered.stop.resolve_left (by omega)
  exact onConstructed_stalled t c .flush dstCap' ⟨hidle, frame.coding.trans hc, hft⟩ hstalled

/-! ### No invalid kind, no fault -/

theorem runCommand_unfaulted_of_noInvalidKind (c : Coding) (hkinds : c.NoInvalidKind) (fuel : Nat) (s t : State)
    (hc : s.coding = some c) (hf : s.fault = false) (h : runCommand fuel s = .next t) : t.fault = false := by
  have keeps (u v : State) (hu : u.coding = some c ∧ u.fault = false) (huv : microStep u = .next v) :
      v.coding = some c ∧ v.fault = false := by
    obtain ⟨huc, huf⟩ := hu
    refine ⟨(microStep_frame u v (by simp [huc]) huv).coding.trans huc, ?_⟩
    by_contra hvf
    obtain ⟨_, c', w, hc', hl, hinvalid, _⟩ := microStep_faults u v huv huf (Bool.eq_true_of_not_eq_false hvf)
    obtain rfl : c = c' := Option.some.inj (huc.symm.trans hc')
    obtain ⟨hlow, hhigh, hslot, rfl⟩ := (u.tblRead_eq_some c w).1 hl
    obtain hk | hk := hkinds u.treeIndex.toNat (u.select c) (by omega) hslot <;>
      simp [hk, kindDescend, kindReturn, kindInvalid0, kindInvalid3] at hinvalid
  obtain ⟨⟨_, hft⟩, _⟩ := runCommand_keeps _ keeps fuel s t ⟨hc, hf⟩ h
  exact hft

theorem onConstructed_unfaulted_of_noInvalidKind (s t : State) (c : Coding) (hs : s.ReadyFor c)
    (hkinds : c.NoInvalidKind) (kind : RunKind) (dstCap : Nat) (src : List Byte)
    (h : onConstructed s (runToEnd (s.startRun kind dstCap src)) = .next t) : t.fault = false := by
  obtain ⟨hr, hc, hf⟩ := hs
  rw [onConstructed_ready s c _ hr hc hf] at h
  exact runCommand_unfaulted_of_noInvalidKind c hkinds _ (s.startRun kind dstCap src) t hc hf h

/-- Settles O24: the answers of DECODE and FLUSH, without their fault. -/
theorem extractingCommandsCompleteUnfaulted : Obligations.ExtractingCommandsCompleteUnfaulted := by
  intro s c dstCap src hs hready hkinds
  obtain ⟨hr, hc, hf⟩ := id hready
  constructor
  · obtain ⟨t, ht, hidle, _, _, ⟨hfault, _⟩ | ⟨hft, nSrc, hresponse, _, _, hstop, _⟩⟩ :=
      decodeCompletesWithItsCounts s c dstCap src hs hready
    · simp [onConstructed_unfaulted_of_noInvalidKind s t c hready hkinds .decode dstCap src ht] at hfault
    · exact ⟨t, nSrc, ht, hidle, hft, hresponse, hstop⟩
  · obtain ⟨t, ht, hidle, _, _, ⟨hfault, _⟩ | ⟨hft, hheld, _, _, hresponse⟩⟩ :=
      flushCompletesWithFinished s c dstCap hs hready
    · simp [onConstructed_unfaulted_of_noInvalidKind s t c hready hkinds .flush dstCap [] ht] at hfault
    · exact ⟨t, ht, hidle, hft, hheld, hresponse⟩

/-! ### REFILL_ALL in a DECODE -/

/-- Settles O20: a stall leaves room for a byte, and REFILL_ALL ingests what fits. -/
theorem refillPhaseIngestsAByte : Obligations.RefillPhaseIngestsAByte := by
  intro s r ⟨_, _, _, _, hrun⟩ hr hk hp hlt
  obtain ⟨_, _, _, _, hstalled, _⟩ := hrun r hr
  obtain ⟨h24, _⟩ := hstalled hp
  refine ⟨by omega, _, rfl, ?_⟩
  rw [step_inside s (by simp [hr]), microStep_needInput s r hr hp, afterNeedInput_refill r s hk hlt,
    ← State.refillAll_eq_foldl]
  obtain ⟨n, _, hn, e, _⟩ := State.refillAll_spec (r.src.drop r.nSrc) s
  rw [List.length_drop] at hn
  rw [e, ← hn, hr]
  rfl

/-! ### Commands that run no EXTRACT, or stop it at once -/

/-- Settles O21: `NEW` constructs and answers all zeros. -/
theorem newConstructsTheDecoder : Obligations.NewConstructsTheDecoder := by
  intro s c hr hwf
  rw [exec_new_eq, execNew_wf c s hr hwf]
  exact congrArg _ ((s.construct c).respond_of_idle hr _)

/-- Settles O25: EXTRACT stops at its capacity test before anything else. -/
theorem decodeWithoutCapacityDoesNothing : Obligations.DecodeWithoutCapacityDoesNothing :=
  fun s c src hs => onConstructed_noCapacity s c .decode src hs

theorem onConstructed_faulted_eq (s : State) (c : Coding) (command : Result) (hr : s.run = none)
    (hc : s.coding = some c) (hf : s.fault = true) :
    onConstructed s command = .next { s with response := some .fault } := by
  rw [onConstructed_faulted s c command hr hc hf, s.respond_of_idle hr]

/-- Settles O30: the test of the whole word, behind the guard of every command. -/
theorem alignedTestsTheWholeWord : Obligations.AlignedTestsTheWholeWord := by
  refine ⟨fun s c ⟨hr, hc, hf⟩ => ?_, fun s c hr hc hf => onConstructed_faulted_eq s c _ hr hc hf⟩
  have answer : exec .aligned s = .next { s with response := some (.ok (s.heldBits == 0#32) 0 0) } := by
    rw [exec_aligned_eq, onConstructed_ready s c _ hr hc hf, s.respond_of_idle hr]
    rfl
  rw [answer]
  exact ⟨fun hzero => by simp [hzero], fun hnonzero => by simp [hnonzero]⟩

/-- Settles O31: the guard of the three commands, and `NEW`, which has its own. -/
theorem faultedAndUnconstructedDecoders : Obligations.FaultedAndUnconstructedDecoders := by
  have guarded (i : Instr) (s : State) (hi : i = .aligned ∨ (∃ n, i = .flush n) ∨ ∃ n src, i = .decode n src) :
      ∃ command, exec i s = onConstructed s command := by
    obtain rfl | ⟨n, rfl⟩ | ⟨n, src, rfl⟩ := hi
    · exact ⟨_, exec_aligned_eq s⟩
    · exact ⟨_, exec_flush_eq n s⟩
    · exact ⟨_, exec_decode_eq n src s⟩
  refine ⟨fun s c i hi hr hc hf => ?_, fun s c hr hwf => ⟨_, execNew_wf c s hr hwf, rfl, rfl⟩,
    fun s i hi hr hc => ?_⟩
  · obtain ⟨command, h⟩ := guarded i s hi
    rw [h, onConstructed_faulted_eq s c command hr hc hf]
  · obtain ⟨command, h⟩ := guarded i s hi
    rw [h, onConstructed_unconstructed s command hr hc]

/-! ### Between commands -/

theorem onConstructed_idle (s t : State) (kind : RunKind) (dstCap : Nat) (src : List Byte)
    (h : onConstructed s (runToEnd (s.startRun kind dstCap src)) = .next t) : t.run = none := by
  obtain ⟨_, _, ⟨_, rfl⟩ | ⟨_, hrun⟩⟩ := onConstructed_next s t _ h
  · rfl
  · obtain ⟨_, hidle⟩ := runCommand_keeps (fun _ => True) (fun _ _ _ _ => trivial) _ _ t trivial hrun
    exact hidle

/-- A command that answers a next state has ended. -/
theorem exec_command_idle (i : Instr) (hi : i.isPointer = false) (s t : State) (h : exec i s = .next t) :
    t.run = none := by
  by_cases hnew : ∃ c, i = .new c
  · obtain ⟨c, rfl⟩ := hnew
    obtain ⟨_, _, rfl⟩ := execNew_next c s t h
    rfl
  · obtain hx | ⟨kind, dstCap, src, hx⟩ := exec_command_cases i hi (not_exists.1 hnew) s
    · obtain ⟨_, _, ⟨_, rfl⟩ | ⟨_, hanswer⟩⟩ := onConstructed_next s t _ (hx ▸ h)
      · rfl
      · cases hanswer
        rfl
    · exact onConstructed_idle s t kind dstCap src (hx ▸ h)

/-- Settles O37: a step between commands is idle or a whole command. -/
theorem commandsAreAtomic : Obligations.CommandsAreAtomic := by
  intro s t hr h
  match hq : s.requests with
  | [] =>
    obtain rfl : s = t := by simpa [step_idle s hr hq] using h
    exact hr
  | q :: rest =>
    rw [step_request s hr q rest hq] at h
    exact exec_command_idle _ (decodeCmd_isPointer q) _ t h

/-- Settles O39: the two branches of a step between commands, a request at hand or none. -/
theorem stepRunsTheNextCommand : Obligations.StepRunsTheNextCommand :=
  ⟨fun s q rest hr hq => step_request s hr q rest hq, fun s hr hq => step_idle s hr hq⟩

/-! ### The flag of ALIGNED and FLUSH over a history -/

/-- The flag of ALIGNED or FLUSH, answered without a fault, is the test of the word it began with. -/
theorem exec_flag_eq (s t : State) (flag : Bool) (n : Nat)
    (h : (exec .aligned s = .next t ∧ t.response = some (.ok flag n 0)) ∨
      ∃ dstCap, exec (.flush dstCap) s = .next t ∧ t.response = some (.ok flag n 0)) :
    flag = (s.heldBits == 0#32) := by
  obtain ⟨h, answer⟩ | ⟨dstCap, h, answer⟩ := h
  · obtain ⟨_, _, ⟨_, rfl⟩ | ⟨_, hanswer⟩⟩ := onConstructed_next s t _ (exec_aligned_eq s ▸ h)
    · simp at answer
    · cases hanswer
      obtain ⟨hflag, _⟩ : flag = (s.heldBits == 0#32) ∧ n = 0 := by
        simpa [State.alignedFlag, eq_comm] using answer
      exact hflag
  · obtain ⟨hr, hc, hcases⟩ := onConstructed_next s t _ (exec_flush_eq dstCap s ▸ h)
    obtain ⟨c, hc⟩ := Option.ne_none_iff_exists'.1 hc
    obtain ⟨_, rfl⟩ | ⟨hf, _⟩ := hcases
    · simp at answer
    obtain ⟨_, ⟨_, hfault⟩ | ⟨_, _, _, _, hresponse⟩⟩ := exec_flush_answered s t c dstCap ⟨hr, hc, hf⟩ h
    · simp [hfault] at answer
    · obtain ⟨hflag, _⟩ : (s.heldBits == 0#32) = flag ∧ _ := by simpa [hresponse] using answer
      exact hflag.symm

/-- Settles O45: the flag tests the word, and the word holds the last four bytes ingested. -/
theorem alignedIffLastFourBytesZero : Obligations.AlignedIffLastFourBytesZero := by
  intro c ingested written s t flag n past h
  have hlast : ingested.length - min ingested.length 4 = ingested.length - 4 := by omega
  rw [exec_flag_eq s t flag n h, beq_iff_eq, hlast]
  exact past.holds.heldBits_eq_zero_iff

end Sys2Proof.Machine
end

section
/-! A command as its micro-steps (42 R160): the state it ends in, by single steps; and DECODE without input beside
FLUSH (42 R165). -/

namespace Sys2Proof.Machine

/-! ### The state a command ends in -/

/-- The micro-steps of the command in progress in `s` end it in `t`. -/
inductive State.EndsIn : State → State → Prop where
  | ended (s : State) (hr : s.run = none) : EndsIn s s
  | after (s u t : State) (hr : s.run ≠ none) (h : microStep s = .next u) (rest : EndsIn u t) : EndsIn s t

theorem State.EndsIn.unique {s t t' : State} (h : s.EndsIn t) (h' : s.EndsIn t') : t = t' := by
  induction h with
  | ended s hr =>
    cases h' with
    | ended => rfl
    | after _ _ _ hr' => exact absurd hr hr'
  | after s u t hr hu _ ih =>
    cases h' with
    | ended _ hr' => exact absurd hr' hr
    | after _ u' _ _ hu' rest =>
      obtain rfl : u = u' := by simpa [hu] using hu'
      exact ih rest

/-- With some fuel left a command in progress takes its next micro-step. -/
theorem runCommand_succ_next (fuel : Nat) (s t : State) (hr : s.run ≠ none) (h : runCommand (fuel + 1) s = .next t) :
    ∃ u, microStep s = .next u ∧ runCommand fuel u = .next t := by
  obtain ⟨r, hr⟩ := Option.ne_none_iff_exists'.1 hr
  simp only [runCommand, hr] at h
  split at h
  · exact ⟨_, ‹_›, h⟩
  · cases h
  · cases h

theorem runCommand_zero_next (s t : State) (h : runCommand 0 s = .next t) : s.run = none := by
  unfold runCommand at h
  split at h
  · assumption
  · cases h

theorem endsIn_of_runCommand (fuel : Nat) : ∀ s t : State, runCommand fuel s = .next t → s.EndsIn t := by
  induction fuel with
  | zero =>
    intro s t h
    have hr := runCommand_zero_next s t h
    rw [runCommand_idle 0 s hr] at h
    cases h
    exact .ended s hr
  | succ fuel ih =>
    intro s t h
    by_cases hr : s.run = none
    · rw [runCommand_idle _ s hr] at h
      cases h
      exact .ended s hr
    · obtain ⟨u, hu, hrest⟩ := runCommand_succ_next fuel s t hr h
      exact .after s u t hr hu (ih u t hrest)

/-- On a machine that meets the invariant the work bound is never what ends a command. -/
theorem onConstructed_iff_endsIn (s t : State) (c : Coding) (hs : s.Inv) (hready : s.ReadyFor c) (kind : RunKind)
    (dstCap : Nat) (src : List Byte) :
    onConstructed s (runToEnd (s.startRun kind dstCap src)) = .next t ↔ (s.startRun kind dstCap src).EndsIn t := by
  obtain ⟨hr, hc, hf⟩ := hready
  rw [onConstructed_ready s c _ hr hc hf]
  refine ⟨endsIn_of_runCommand _ _ t, fun h => ?_⟩
  obtain ⟨u, hu, _⟩ := runToEnd_inv s hs c hc hf kind dstCap src
  rw [hu, h.unique (endsIn_of_runCommand _ _ u hu)]

theorem core_run_succ_next (n : Nat) (s t : State) (h : Host.Core.run core (n + 1) s = .next t) :
    ∃ u, step s = .next u ∧ Host.Core.run core n u = .next t := by
  match hu : step s with
  | Host.Outcome.next u => exact ⟨u, rfl, core_run_succ n s u hu ▸ h⟩
  | .fault r => cases r
  | .refused r =>
    have hcore : core.step s = .refused r := hu
    simp only [Host.Core.run, hcore] at h
    cases h

theorem State.EndsIn.runsTo {s t : State} (h : s.EndsIn t) : s.RunsTo t := by
  induction h with
  | ended s hr => exact ⟨0, rfl, hr, fun m hm => absurd hm (Nat.not_lt_zero m)⟩
  | after s u t hr hu _ ih =>
    obtain ⟨n, hn, ht, hbefore⟩ := ih
    have hstep : step s = .next u := (step_inside s hr).trans hu
    refine ⟨n + 1, (core_run_succ n s u hstep).trans hn, ht, fun m hm => ?_⟩
    cases m with
    | zero => exact ⟨s, rfl, hr⟩
    | succ m =>
      obtain ⟨v, hv, hrun⟩ := hbefore m (by omega)
      exact ⟨v, (core_run_succ m s u hstep).trans hv, hrun⟩

theorem State.EndsIn.of_core_run (t : State) (ht : t.run = none) (n : Nat) : ∀ s : State,
    Host.Core.run core n s = .next t →
      (∀ m < n, ∃ u : State, Host.Core.run core m s = .next u ∧ u.run ≠ none) → s.EndsIn t := by
  induction n with
  | zero =>
    intro s h _
    cases h
    exact .ended _ ht
  | succ n ih =>
    intro s h hbefore
    obtain ⟨_, hs, hr⟩ := hbefore 0 (Nat.succ_pos n)
    cases hs
    obtain ⟨u, hu, hrest⟩ := core_run_succ_next n s t h
    refine .after s u t hr ((step_inside s hr).symm.trans hu) (ih u hrest fun m hm => ?_)
    obtain ⟨v, hv, hrun⟩ := hbefore (m + 1) (by omega)
    exact ⟨v, (core_run_succ m s u hu).symm.trans hv, hrun⟩

theorem State.endsIn_iff_runsTo (s t : State) : s.EndsIn t ↔ s.RunsTo t :=
  ⟨fun h => h.runsTo, fun ⟨n, hn, ht, hbefore⟩ => .of_core_run t ht n s hn hbefore⟩

/-- Settles O29: the command is its micro-steps, and inside a command a step is a micro-step. -/
theorem commandsAreTheirSteps : Obligations.CommandsAreTheirSteps := by
  intro s c dstCap src hs hready
  obtain ⟨hr, hc, _⟩ := id hready
  have completes (i : Instr) (hi : i.isPointer = false) (hnew : ∀ c, i ≠ .new c) : ∃ t, exec i s = .next t := by
    obtain ⟨t, ht, _⟩ := exec_command_inv i hi hnew s hs hr c hc
    exact ⟨t, ht⟩
  have steps (kind : RunKind) (src : List Byte) (t : State) :
      onConstructed s (runToEnd (s.startRun kind dstCap src)) = .next t ↔ (s.startRun kind dstCap src).RunsTo t :=
    (onConstructed_iff_endsIn s t c hs hready kind dstCap src).trans (State.endsIn_iff_runsTo _ t)
  exact ⟨completes (.decode dstCap src) rfl (fun _ h => by cases h),
    completes (.flush dstCap) rfl (fun _ h => by cases h), steps .decode src, steps .flush []⟩

/-! ### DECODE without input, and FLUSH -/

/-- A command without input in progress. -/
def RunKind.withoutInput (kind : RunKind) (dstCap : Nat) (phase : Phase) : Run :=
  { kind := kind, dstCap := dstCap, src := [], nSrc := 0, phase := phase }

/-- The machine with the command `r` in progress. -/
def State.running (s : State) (r : Run) : State := { s with run := some r }

/-- How a command of this kind without input ends, where one of another kind ends in `t`. -/
def State.endAs (t : State) (kind : RunKind) : State :=
  if t.fault = true then t else { t with response := some (kind.answer t 0) }

theorem State.endAs_faulted (t : State) (kind : RunKind) (hf : t.fault = true) : t.endAs kind = t := if_pos hf

theorem State.endAs_unfaulted (t : State) (kind : RunKind) (hf : t.fault = false) :
    t.endAs kind = { t with response := some (kind.answer t 0) } := if_neg (by simp [hf])

theorem State.endAs_run (t : State) (kind : RunKind) : (t.endAs kind).run = t.run := by
  unfold State.endAs
  split <;> rfl

theorem State.endAs_respond (s : State) (kind kind' : RunKind) (dstCap : Nat) (phase : Phase) (hf : s.fault = false) :
    ((s.running (kind.withoutInput dstCap phase)).respond
      ((s.running (kind.withoutInput dstCap phase)).runResponse (kind.withoutInput dstCap phase))).endAs kind' =
    (s.running (kind'.withoutInput dstCap phase)).respond
      ((s.running (kind'.withoutInput dstCap phase)).runResponse (kind'.withoutInput dstCap phase)) := by
  refine (State.endAs_unfaulted _ kind' ?_).trans ?_
  · exact hf
  · cases kind' <;> rfl

section
variable {s t : State} {c : Coding} {kind : RunKind} (kind' : RunKind) {dstCap : Nat} {phase : Phase}

/-- Without input the two kinds take the same micro-steps, up to their answers. -/
theorem MicroStep.withoutInput (hf : s.fault = false)
    (h : MicroStep (s.running (kind.withoutInput dstCap phase)) c (kind.withoutInput dstCap phase) t) :
    (∃ u phase', t = State.running u (kind.withoutInput dstCap phase') ∧ u.coding = s.coding ∧ u.fault = false ∧
      MicroStep (s.running (kind'.withoutInput dstCap phase)) c (kind'.withoutInput dstCap phase)
        (u.running (kind'.withoutInput dstCap phase'))) ∨
    (t.run = none ∧ MicroStep (s.running (kind'.withoutInput dstCap phase)) c (kind'.withoutInput dstCap phase)
      (t.endAs kind')) := by
  cases h with
  | full hp hd => exact .inl ⟨s, .dstFull, rfl, rfl, hf, .full hp hd⟩
  | stall hp hd w hl hn => exact .inl ⟨s, .needInput, rfl, rfl, hf, .stall hp hd w hl hn⟩
  | descend hp hd w hl hn hk =>
    exact .inl ⟨(s.consume (ptrConsumeBits w)).moveTo (s.treeIndex + ptrOffset w), phase, rfl, rfl, hf,
      .descend (s := s.running (kind'.withoutInput dstCap phase)) (r := kind'.withoutInput dstCap phase)
        hp hd w hl hn hk⟩
  | ret hp hd w hl hn hk =>
    exact .inl ⟨((s.consume (ptrConsumeBits w)).emit (ptrSymbol w)).moveTo (c.treeIndexStart : Int), phase, rfl, rfl,
      hf, .ret (s := s.running (kind'.withoutInput dstCap phase)) (r := kind'.withoutInput dstCap phase)
        hp hd w hl hn hk⟩
  | corrupt hp hd w hl hn hk =>
    rw [State.endAs_faulted _ kind' rfl]
    exact .inr ⟨rfl, .corrupt (s := s.running (kind'.withoutInput dstCap phase))
      (r := kind'.withoutInput dstCap phase) hp hd w hl hn hk⟩
  | respond hp =>
    rw [State.endAs_respond s kind kind' dstCap phase hf]
    exact .inr ⟨rfl, .respond (hp.imp_right fun ⟨hp, _⟩ => ⟨hp, .inr (Nat.le_refl 0)⟩)⟩
  | refill _ _ hs => exact absurd hs (Nat.not_lt_zero 0)

theorem runCommand_withoutInput (fuel : Nat) : ∀ (s t : State) (phase : Phase), s.coding = some c →
    s.fault = false → runCommand fuel (s.running (kind.withoutInput dstCap phase)) = .next t →
      runCommand fuel (s.running (kind'.withoutInput dstCap phase)) = .next (t.endAs kind') := by
  induction fuel with
  | zero =>
    intro s t phase _ _ h
    cases runCommand_zero_next _ t h
  | succ fuel ih =>
    intro s t phase hc hf h
    have hin (k : RunKind) : (s.running (k.withoutInput dstCap phase)).run ≠ none := Option.some_ne_none _
    obtain ⟨u, hu, hrest⟩ := runCommand_succ_next fuel _ t (hin kind) h
    have hmicro := microStep_inversion (s.running (kind.withoutInput dstCap phase)) c _ hc rfl u hu
    obtain ⟨v, phase', rfl, hcv, hfv, hmicro'⟩ | ⟨hidle, hmicro'⟩ := hmicro.withoutInput kind' hf
    · rw [runCommand_step fuel _ _ (hin kind') (hmicro'.microStep_eq hc rfl hf)]
      exact ih v t phase' (hcv.trans hc) hfv hrest
    · rw [runCommand_idle fuel u hidle] at hrest
      cases hrest
      rw [runCommand_step fuel _ _ (hin kind') (hmicro'.microStep_eq hc rfl hf)]
      exact runCommand_idle fuel _ ((t.endAs_run kind').trans hidle)

theorem onConstructed_withoutInput (h : onConstructed s (runToEnd (s.startRun kind dstCap [])) = .next t) :
    onConstructed s (runToEnd (s.startRun kind' dstCap [])) = .next (t.endAs kind') := by
  obtain ⟨hr, hc, hcases⟩ := onConstructed_next s t _ h
  obtain ⟨c, hc⟩ := Option.ne_none_iff_exists'.1 hc
  obtain ⟨hf, rfl⟩ | ⟨hf, hrun⟩ := hcases
  · rw [onConstructed_faulted s c _ hr hc hf, State.endAs_faulted (s.respond .fault) kind' hf]
  · rw [onConstructed_ready s c _ hr hc hf]
    exact runCommand_withoutInput kind' _ { s with dst := [] } t .extract hc hf hrun

end

/-- Settles O26: without input the two take the same micro-steps. -/
theorem decodeOfNothingIsFlush : Obligations.DecodeOfNothingIsFlush := by
  intro s t dstCap
  have unfaulted (kind kind' : RunKind) (h : onConstructed s (runToEnd (s.startRun kind dstCap [])) = .next t)
      (hf : t.fault = false) : onConstructed s (runToEnd (s.startRun kind' dstCap [])) =
        .next { t with response := some (kind'.answer t 0) } :=
    t.endAs_unfaulted kind' hf ▸ onConstructed_withoutInput kind' h
  have faulted (kind kind' : RunKind) (h : onConstructed s (runToEnd (s.startRun kind dstCap [])) = .next t)
      (hf : t.fault = true) : onConstructed s (runToEnd (s.startRun kind' dstCap [])) = .next t :=
    (onConstructed_withoutInput kind' h).trans (congrArg _ (t.endAs_faulted kind' hf))
  exact ⟨unfaulted .decode .flush, unfaulted .flush .decode,
    fun h hf => ⟨t, faulted .decode .flush h hf, hf, rfl, rfl⟩,
    fun h hf => ⟨t, faulted .flush .decode h hf, hf, rfl, rfl⟩⟩

end Sys2Proof.Machine
end

section
/-! A DECODE cut in two by its capacity (42 R166): the one DECODE comes to the state in which the first half answers,
and from there takes the micro-steps of the second. -/

namespace Sys2Proof.Machine

/-- The machine with this command in progress, these bytes in `dst` and this latest response. -/
def State.withCommand (s : State) (dst : List Byte) (r : Run) (response : Option Response) : State :=
  { s with dst := dst, run := some r, response := response }

/-- A DECODE in progress. -/
def Run.decode (dstCap : Nat) (src : List Byte) (nSrc : Nat) (phase : Phase) : Run :=
  { kind := .decode, dstCap := dstCap, src := src, nSrc := nSrc, phase := phase }

/-- REFILL_ALL looks at the accumulator and the bytes left alone, whatever command is in progress. -/
theorem State.refillAll_withCommand (s : State) (r : Run) (hr : s.run = some r) (t : State)
    (ht : t = (State.refillAll (r.src.drop r.nSrc) s).setPhase .extract) :
    ∃ n, t.run = some { r with nSrc := r.nSrc + n, phase := .extract } ∧ t.dst = s.dst ∧ t.coding = s.coding ∧
      t.fault = s.fault ∧
      ∀ c dst (r' : Run) response, r'.phase = .needInput → r'.kind = .decode → r'.nSrc < r'.src.length →
        r'.src.drop r'.nSrc = r.src.drop r.nSrc →
        MicroStep (s.withCommand dst r' response) c r'
          (t.withCommand dst { r' with nSrc := r'.nSrc + n, phase := .extract } response) := by
  obtain ⟨n, hb, hn, e, hv⟩ := State.refillAll_spec (r.src.drop r.nSrc) s
  rw [ht, e, hr]
  refine ⟨n, rfl, rfl, rfl, rfl, fun c dst r' response hp hk hs hdrop => ?_⟩
  have hrefill := MicroStep.refill (s := s.withCommand dst r' response) (c := c) hp hk hs
  obtain ⟨n', hb', hn', e', hv'⟩ := State.refillAll_spec (r'.src.drop r'.nSrc) (s.withCommand dst r' response)
  rw [hdrop] at hn' hv'
  obtain rfl : n = n' := hn.trans hn'.symm
  obtain rfl : hb = hb' := BitVec.eq_of_toNat_eq (hv.trans hv'.symm)
  rw [e'] at hrefill
  exact hrefill

/-! ### Up to the split point -/

/-- A DECODE of capacity `k`, begun as `whole` is with the greater capacity `dstCap`: in progress, answered, or ended
by a fault. `whole` ends as the machine with its own command in this one's place does, extracting. -/
inductive State.SplitOf (c : Coding) (k dstCap : Nat) (src : List Byte) (response : Option Response)
    (s whole : State) : Prop where
  | running (nSrc : Nat) (phase : Phase) (hr : s.run = some (Run.decode k src nSrc phase)) (hc : s.coding = some c)
      (hf : s.fault = false) (stalled : phase = .needInput → s.Stalled c ∧ s.dst.length < k)
      (resumes : ∀ v, (s.withCommand s.dst (Run.decode dstCap src nSrc .extract) response).EndsIn v → whole.EndsIn v)
  | answered (nSrc : Nat) (hr : s.run = none) (answer : s.response = some (.ok false s.dst.length nSrc))
      (resumes : ∀ v, (s.withCommand s.dst (Run.decode dstCap src nSrc .extract) response).EndsIn v → whole.EndsIn v)
  | faulted (hr : s.run = none) (answer : s.response = some .fault)

/-- A micro-step of a command on an unfaulted Decoder, put before the ones that end the command. -/
theorem MicroStep.endsIn {s t v : State} {c : Coding} {r : Run} (h : MicroStep s c r t) (hc : s.coding = some c)
    (hr : s.run = some r) (hf : s.fault = false) (hv : t.EndsIn v) : s.EndsIn v :=
  .after s t v (by simp [hr]) (h.microStep_eq hc hr hf) hv

section
variable {whole : State} {c : Coding} {k dstCap : Nat} {src : List Byte} {response : Option Response}

theorem MicroStep.splitOf {s t : State} {nSrc : Nat} {phase : Phase} (hk : k ≤ dstCap)
    (h : MicroStep s c (Run.decode k src nSrc phase) t) (hr : s.run = some (Run.decode k src nSrc phase))
    (hc : s.coding = some c) (hf : s.fault = false) (stalled : phase = .needInput → s.Stalled c ∧ s.dst.length < k)
    (resumes : ∀ v, (s.withCommand s.dst (Run.decode dstCap src nSrc .extract) response).EndsIn v → whole.EndsIn v) :
    t.SplitOf c k dstCap src response whole := by
  have going {u : State}
      (hu : MicroStep (s.withCommand s.dst (Run.decode dstCap src nSrc .extract) response) c
        (Run.decode dstCap src nSrc .extract) u) (v : State) (hv : u.EndsIn v) : whole.EndsIn v :=
    resumes v (hu.endsIn hc rfl hf hv)
  cases h with
  | full =>
    exact .running nSrc .dstFull (by rw [State.setPhase_run, hr]; rfl) hc hf (fun hp => by cases hp) resumes
  | stall hp hd w hl hn =>
    exact .running nSrc .needInput (by rw [State.setPhase_run, hr]; rfl) hc hf (fun _ => ⟨⟨w, hl, hn⟩, hd⟩)
      resumes
  | descend hp hd w hl hn hkind =>
    obtain rfl : phase = .extract := hp
    exact .running nSrc .extract hr hc hf (fun hp => by cases hp)
      (going (.descend (s := s.withCommand s.dst (Run.decode dstCap src nSrc .extract) response)
        (r := Run.decode dstCap src nSrc .extract) rfl (Nat.lt_of_lt_of_le hd hk) w hl hn hkind))
  | ret hp hd w hl hn hkind =>
    obtain rfl : phase = .extract := hp
    exact .running nSrc .extract hr hc hf (fun hp => by cases hp)
      (going (.ret (s := s.withCommand s.dst (Run.decode dstCap src nSrc .extract) response)
        (r := Run.decode dstCap src nSrc .extract) rfl (Nat.lt_of_lt_of_le hd hk) w hl hn hkind))
  | corrupt => exact .faulted rfl rfl
  | respond => exact .answered nSrc rfl (by rw [State.runResponse_eq_answer]; rfl) resumes
  | refill hp _ hs =>
    obtain ⟨⟨w, hl, hn⟩, hd⟩ := stalled hp
    obtain ⟨n, hrun, hdst, hcoding, hfault, hrefill⟩ := s.refillAll_withCommand _ hr _ rfl
    have hstall := MicroStep.stall (s := s.withCommand s.dst (Run.decode dstCap src nSrc .extract) response)
      (r := Run.decode dstCap src nSrc .extract) rfl (Nat.lt_of_lt_of_le hd hk) w hl hn
    have hrefill := hrefill c s.dst (Run.decode dstCap src nSrc .needInput) response rfl rfl hs rfl
    refine .running (nSrc + n) .extract hrun (hcoding.trans hc) (hfault.trans hf) (fun hp => by cases hp)
      fun v hv => going hstall v (hrefill.endsIn hc rfl hf ?_)
    rw [hdst] at hv
    exact hv

theorem microStep_splitOf (hk : k ≤ dstCap) (s t : State) (hs : s.SplitOf c k dstCap src response whole)
    (h : microStep s = .next t) : t.SplitOf c k dstCap src response whole := by
  cases id hs with
  | running nSrc phase hr hc hf stalled resumes =>
    exact (microStep_inversion s c _ hc hr t h).splitOf hk hr hc hf stalled resumes
  | answered _ hr | faulted hr =>
    obtain rfl : s = t := by simpa [microStep_idle s hr] using h
    exact hs

end

/-- The DECODE of the greater capacity comes to the state in which the DECODE of the smaller one answers. -/
theorem onConstructed_resumes (s t v : State) (c : Coding) (k dstCap nDst nSrc : Nat) (src : List Byte)
    (hs : s.ReadyFor c) (hk : k ≤ dstCap) (h : onConstructed s (runToEnd (s.startRun .decode k src)) = .next t)
    (answer : t.response = some (.ok false nDst nSrc))
    (hv : (t.withCommand t.dst (Run.decode dstCap src nSrc .extract) s.response).EndsIn v) :
    (s.startRun .decode dstCap src).EndsIn v := by
  obtain ⟨hr, hc, hf⟩ := hs
  rw [onConstructed_ready s c _ hr hc hf] at h
  have begun : (s.startRun .decode k src).SplitOf c k dstCap src s.response (s.startRun .decode dstCap src) :=
    .running 0 .extract rfl hc hf (fun hp => by cases hp) fun _ hv => hv
  obtain ⟨hend, hidle⟩ := runCommand_keeps (State.SplitOf c k dstCap src s.response · (s.startRun .decode dstCap src))
    (microStep_splitOf hk) _ _ t begun h
  cases hend with
  | running _ _ hr => simp [hidle] at hr
  | answered nSrc' _ answer' resumes =>
    obtain ⟨_, rfl⟩ : t.dst.length = nDst ∧ nSrc' = nSrc := by simpa [answer'] using answer
    exact resumes v hv
  | faulted _ answer' => simp [answer'] at answer

/-! ### From the split point on -/

/-- The response of a DECODE that had written `nDst` bytes and ingested `nSrc` before the micro-steps of another. -/
def Response.after (nDst nSrc : Nat) : Response → Response
  | .fault => .fault
  | .ok flag n k => .ok flag (nDst + n) (nSrc + k)

/-- A machine between commands with `written` before what is in `dst`, and its counts raised. -/
def State.joined (s : State) (written ingested : List Byte) : State :=
  { s with dst := written ++ s.dst, response := s.response.map (Response.after written.length ingested.length) }

section
variable (written ingested : List Byte)

/-- A DECODE that had written and ingested these bytes before. -/
def Run.joined (cap : Nat) (src : List Byte) (nSrc : Nat) (phase : Phase) : Run :=
  Run.decode (written.length + cap) (ingested ++ src) (ingested.length + nSrc) phase

/-- The machine in that DECODE, what was written before in front of what is in `dst`. -/
def State.joinedIn (s : State) (cap : Nat) (src : List Byte) (nSrc : Nat) (phase : Phase)
    (response : Option Response) : State :=
  s.withCommand (written ++ s.dst) (Run.joined written ingested cap src nSrc phase) response

variable {c : Coding} {cap : Nat} {src : List Byte}

theorem MicroStep.joined {s t : State} {nSrc : Nat} {phase : Phase} (response : Option Response)
    (h : MicroStep s c (Run.decode cap src nSrc phase) t) (hr : s.run = some (Run.decode cap src nSrc phase)) :
    (∃ nSrc' phase', t.run = some (Run.decode cap src nSrc' phase') ∧ t.coding = s.coding ∧ t.fault = s.fault ∧
      MicroStep (s.joinedIn written ingested cap src nSrc phase response) c
        (Run.joined written ingested cap src nSrc phase)
        (t.joinedIn written ingested cap src nSrc' phase' response)) ∨
    (t.run = none ∧ MicroStep (s.joinedIn written ingested cap src nSrc phase response) c
        (Run.joined written ingested cap src nSrc phase)
        (t.joined written ingested)) := by
  have hused : src.length ≤ nSrc → (ingested ++ src).length ≤ ingested.length + nSrc := fun hs => by
    rw [List.length_append]; omega
  have hleft : nSrc < src.length → ingested.length + nSrc < (ingested ++ src).length := fun hs => by
    rw [List.length_append]; omega
  have hroom : s.dst.length < cap → (written ++ s.dst).length < written.length + cap := fun hd => by
    rw [List.length_append]; omega
  cases h with
  | full hp hd =>
    refine .inl ⟨nSrc, .dstFull, by rw [State.setPhase_run, hr]; rfl, rfl, rfl, .full hp ?_⟩
    exact (Nat.add_le_add_left hd _).trans (List.length_append).ge
  | stall hp hd w hl hn =>
    exact .inl ⟨nSrc, .needInput, by rw [State.setPhase_run, hr]; rfl, rfl, rfl, .stall hp (hroom hd) w hl hn⟩
  | descend hp hd w hl hn hk =>
    exact .inl ⟨nSrc, phase, hr, rfl, rfl,
      .descend (s := s.joinedIn written ingested cap src nSrc phase response)
        (r := Run.joined written ingested cap src nSrc phase) hp (hroom hd) w hl hn hk⟩
  | ret hp hd w hl hn hk =>
    have hret := MicroStep.ret (s := s.joinedIn written ingested cap src nSrc phase response)
      (r := Run.joined written ingested cap src nSrc phase) hp (hroom hd) w hl hn hk
    refine .inl ⟨nSrc, phase, hr, rfl, rfl, ?_⟩
    have hdst : written ++ (s.dst ++ [ptrSymbol w]) = written ++ s.dst ++ [ptrSymbol w] :=
      (List.append_assoc _ _ _).symm
    unfold State.joinedIn
    rw [State.moveTo_dst, State.emit_dst, State.consume_dst, hdst]
    exact hret
  | corrupt hp hd w hl hn hk =>
    exact .inr ⟨rfl, .corrupt (s := s.joinedIn written ingested cap src nSrc phase response)
      (r := Run.joined written ingested cap src nSrc phase) hp (hroom hd) w hl hn hk⟩
  | respond hp =>
    have hrespond := MicroStep.respond (s := s.joinedIn written ingested cap src nSrc phase response) (c := c)
      (r := Run.joined written ingested cap src nSrc phase)
      (hp.imp_right fun ⟨hp, hs⟩ => ⟨hp, hs.imp_right hused⟩)
    refine .inr ⟨rfl, ?_⟩
    have hlen : written.length + s.dst.length = (written ++ s.dst).length := List.length_append.symm
    rw [State.runResponse_eq_answer] at hrespond ⊢
    simp only [State.joined, State.respond, Option.map, Run.decode, Run.joined, RunKind.answer, Response.after, hlen]
    exact hrespond
  | refill hp _ hs =>
    obtain ⟨n, hrun, hdst, hcoding, hfault, hrefill⟩ := s.refillAll_withCommand _ hr _ rfl
    have hdrop : (ingested ++ src).drop (ingested.length + nSrc) = src.drop nSrc := by
      rw [List.drop_append]; simp
    have hrefill := hrefill c (written ++ s.dst)
      (Run.joined written ingested cap src nSrc phase) response hp rfl (hleft hs) hdrop
    refine .inl ⟨nSrc + n, .extract, hrun, hcoding, hfault, ?_⟩
    rw [State.joinedIn, State.joinedIn, Run.joined, Run.joined, hdst, ← Nat.add_assoc]
    exact hrefill

theorem State.EndsIn.joined {s u : State} (h : s.EndsIn u) : ∀ (nSrc : Nat) (phase : Phase)
    (response : Option Response), s.run = some (Run.decode cap src nSrc phase) → s.coding = some c → s.fault = false →
      (s.joinedIn written ingested cap src nSrc phase response).EndsIn (u.joined written ingested) := by
  induction h with
  | ended s hr => intro _ _ _ hr'; simp [hr] at hr'
  | after s t u _ hmicro hrest ih =>
    intro nSrc phase response hr hc hf
    have hstep := (microStep_inversion s c _ hc hr t hmicro).joined written ingested response hr
    obtain ⟨nSrc', phase', hr', hc', hf', hjoined⟩ | ⟨hidle, hjoined⟩ := hstep
    · exact hjoined.endsIn hc rfl hf (ih nSrc' phase' response hr' (hc'.trans hc) (hf'.trans hf))
    · obtain rfl : t = u := (State.EndsIn.ended t hidle).unique hrest
      exact hjoined.endsIn hc rfl hf (.ended _ hidle)

end

/-- Settles O47: the one DECODE comes to the split point, and from there runs as the second half does. -/
theorem decodeSplitByCapacity : Obligations.DecodeSplitByCapacity := by
  intro s t u dstCap k nDst nSrc src hs hk ht answer hu
  obtain ⟨hr, hsc, hcases⟩ := onConstructed_next s t _ (exec_decode_eq k src s ▸ ht)
  obtain ⟨c, hc⟩ := Option.ne_none_iff_exists'.1 hsc
  obtain ⟨_, rfl⟩ | ⟨hf, _⟩ := hcases
  · simp at answer
  obtain ⟨t', ht', htInv⟩ := exec_command_inv (.decode k src) rfl (fun _ h => by cases h) s hs hr c hc
  obtain rfl : t' = t := by simpa [ht'] using ht
  obtain ⟨htr, ⟨_, hfault⟩ | ⟨nSrc', hft, hresponse, ⟨hdst, hsrc, _⟩, _⟩⟩ := onConstructed_answered s t' hc hf ht
  · simp [hfault] at answer
  obtain ⟨rfl, rfl⟩ : t'.dst.length = nDst ∧ nSrc' = nSrc := by simpa [RunKind.answer, answer] using hresponse.symm
  have htc : t'.coding = some c := (exec_command_frame _ rfl (fun _ h => by cases h) s t' ht).coding.trans hc
  have second := (onConstructed_iff_endsIn t' u c htInv ⟨htr, htc, hft⟩ .decode _ _).1 hu
  have hlen : (src.take nSrc').length = nSrc' := List.length_take_of_le hsrc
  have whole : exec (.decode dstCap src) s = .next (u.joined t'.dst (src.take nSrc')) := by
    refine (onConstructed_iff_endsIn s _ c hs ⟨hr, hc, hf⟩ .decode dstCap src).2 ?_
    refine onConstructed_resumes s t' _ c k dstCap _ _ src ⟨hr, hc, hf⟩ hk ht answer ?_
    have joined := second.joined t'.dst (src.take nSrc') (c := c) 0 .extract s.response rfl htc hft
    have hcap : t'.dst.length + (dstCap - t'.dst.length) = dstCap := by omega
    simpa [State.joinedIn, Run.joined, State.withCommand, hlen, hcap] using joined
  rw [whole]
  refine ⟨fun hfault => ⟨_, rfl, hfault, rfl⟩, fun mSrc hanswer => ?_⟩
  rw [State.joined, hanswer, Option.map_some, Response.after, hlen]

end Sys2Proof.Machine
end

section
/-! The walk that a Coding prescribes over a bit string (20 R57, 40 R120): from a node, on the bits that its pointer
consumes, to the next node or to a symbol and the root. With the replication property there is at most one. -/

namespace Sys2Proof

/-! ### Bits as a number -/

theorem bitsValue_append (l l' : List Bool) : bitsValue (l ++ l') = bitsValue l * 2 ^ l'.length + bitsValue l' := by
  induction l' using List.reverseRecOn with
  | nil => simp [bitsValue]
  | append_singleton l' b ih =>
    rw [← List.append_assoc, bitsValue_append_bit, bitsValue_append_bit, ih, List.length_append, List.length_singleton,
      Nat.pow_succ]
    ring

/-- The first bits of a string are its value divided, and the others what remains. -/
theorem bitsValue_append_div (l l' : List Bool) : bitsValue (l ++ l') / 2 ^ l'.length = bitsValue l := by
  rw [bitsValue_append, Nat.mul_comm, Nat.mul_add_div (Nat.two_pow_pos _), Nat.div_eq_of_lt (bitsValue_lt l'),
    Nat.add_zero]

theorem bitsValue_append_mod (l l' : List Bool) : bitsValue (l ++ l') % 2 ^ l'.length = bitsValue l' := by
  rw [bitsValue_append, Nat.mul_add_mod', Nat.mod_eq_of_lt (bitsValue_lt l')]

theorem length_byteBits (b : Byte) : (byteBits b).length = 8 := by
  rw [byteBits, List.length_map, List.length_range]

theorem bitsValue_byteBits : ∀ b : Byte, bitsValue (byteBits b) = b.toNat := by decide

theorem streamBits_nil : streamBits [] = [] := rfl

theorem streamBits_append (bs bs' : List Byte) : streamBits (bs ++ bs') = streamBits bs ++ streamBits bs' :=
  List.flatMap_append

/-! ### The pointer that bits lead to -/

/-- The bits that a pointer consumes. -/
def Instr.bitsTaken : Instr → Nat
  | .descend n _ | .ret n _ | .invalid0 n | .invalid3 n => n
  | .new _ | .decode _ _ | .flush _ | .aligned => 0

theorem bitsTaken_decodePtr {tw : Nat} (w : PtrWord tw) : (decodePtr w).bitsTaken = ptrConsumeBits w := by
  rcases kind_cases (ptrKind w) with h | h | h | h
  · rw [decodePtr_descend w h]; rfl
  · rw [decodePtr_ret w h]; rfl
  · rw [decodePtr_invalid0 w h]; rfl
  · rw [decodePtr_invalid3 w h]; rfl

/-- Node `i` holds the pointer `p`, which consumes `bits`, in a slot that begins with them. -/
def Coding.Leads (c : Coding) (i : Nat) (bits : List Bool) (p : Instr) : Prop :=
  i < c.nodeCount ∧ p.bitsTaken = bits.length ∧
    ∃ slot, slot < c.slots ∧ c.pointer i slot = p ∧ slot / 2 ^ (c.treeShift - bits.length) = bitsValue bits

theorem Coding.bitsTaken_le (c : Coding) (hwf : c.wf = true) (i slot : Nat) (hs : slot < c.slots) :
    (c.pointer i slot).bitsTaken ≤ c.treeShift := by
  obtain ⟨hle, _⟩ := (c.pointerOk_iff _ _).1 (c.pointerOk_of_wf hwf i slot hs)
  exact (bitsTaken_decodePtr _).trans_le hle

/-- A slot that begins with the bits of a pointer holds that pointer. -/
theorem Coding.Leads.pointer_eq {c : Coding} (hrep : c.Replicated) {i : Nat} {bits : List Bool} {p : Instr}
    (h : c.Leads i bits p) (slot : Nat) (hs : slot < c.slots)
    (htop : slot / 2 ^ (c.treeShift - bits.length) = bitsValue bits) : c.pointer i slot = p := by
  obtain ⟨hi, hn, slot', hs', rfl, hb⟩ := h
  rw [Coding.pointer, bitsTaken_decodePtr] at hn
  exact (hrep i slot' slot hi hs' hs (by rw [hn, hb, htop])).symm

theorem Coding.Leads.eq_of_prefix {c : Coding} (hwf : c.wf = true) (hrep : c.Replicated) {i : Nat}
    {bits bits' : List Bool} {p p' : Instr} (h : c.Leads i bits p) (h' : c.Leads i bits' p') (hle : bits <+: bits') :
    p = p' ∧ bits = bits' := by
  obtain ⟨_, hn', slot, hs, hp', hb⟩ := h'
  have hlen : bits'.length ≤ c.treeShift := hn' ▸ hp' ▸ c.bitsTaken_le hwf i slot hs
  obtain ⟨rest, rfl⟩ := id hle
  rw [List.length_append] at hlen hb
  have htop : slot / 2 ^ (c.treeShift - bits.length) = bitsValue bits := by
    have hsplit : c.treeShift - bits.length = (c.treeShift - (bits.length + rest.length)) + rest.length := by omega
    rw [hsplit, Nat.pow_add, ← Nat.div_div_eq_div_mul, hb, bitsValue_append_div]
  obtain rfl : c.pointer i slot = p := h.pointer_eq hrep slot hs htop
  obtain ⟨_, hn, _⟩ := h
  exact ⟨hp', hle.eq_of_length (hn.symm.trans (hp' ▸ hn'))⟩

/-- At most one pointer is found on a bit string. -/
theorem Coding.Leads.unique {c : Coding} (hwf : c.wf = true) (hrep : c.Replicated) {i : Nat}
    {bits bits' stream : List Bool} {p p' : Instr} (h : c.Leads i bits p) (h' : c.Leads i bits' p')
    (hpre : bits <+: stream) (hpre' : bits' <+: stream) : p = p' ∧ bits = bits' := by
  obtain hle | hle := List.prefix_or_prefix_of_prefix hpre hpre'
  · exact h.eq_of_prefix hwf hrep h' hle
  · exact (h'.eq_of_prefix hwf hrep h hle).imp Eq.symm Eq.symm

/-- A DESCEND of a checked Coding leads to no node before the first. -/
theorem Coding.Leads.descend_target {c : Coding} (hwf : c.wf = true) {i : Nat} {bits : List Bool} {n : Nat}
    {offset : Int} (h : c.Leads i bits (.descend n offset)) : 0 ≤ (i : Int) + offset := by
  obtain ⟨_, _, slot, hs, hp, _⟩ := h
  obtain ⟨_, hdescend, _⟩ := (c.pointerOk_iff _ _).1 (c.pointerOk_of_wf hwf i slot hs)
  obtain ⟨hlow, _⟩ := hdescend n offset hp
  exact hlow

/-! ### The walk -/

/-- A point of a walk: the node, the bits still to be read, the symbols written. -/
structure Walk where
  node    : Nat
  bits    : List Bool
  written : List Byte

/-- One pointer of a walk. -/
inductive Coding.WalkStep (c : Coding) (w : Walk) : Walk → Prop where
  | descend (n : Nat) (offset : Int) (bits rest : List Bool) (j : Nat) (hbits : w.bits = bits ++ rest)
      (hlead : c.Leads w.node bits (.descend n offset)) (hj : (w.node : Int) + offset = (j : Int)) :
      WalkStep c w { node := j, bits := rest, written := w.written }
  | ret (n : Nat) (symbol : Byte) (bits rest : List Bool) (hbits : w.bits = bits ++ rest)
      (hlead : c.Leads w.node bits (.ret n symbol)) :
      WalkStep c w { node := c.treeIndexStart, bits := rest, written := w.written ++ [symbol] }

/-- A walk. -/
def Coding.Walks (c : Coding) : Walk → Walk → Prop := Relation.ReflTransGen c.WalkStep

/-- The point with more bits after those still to be read. -/
def Walk.extend (w : Walk) (more : List Bool) : Walk := { w with bits := w.bits ++ more }

/-- A walk over the codewords of `c` begins at its root. -/
def Coding.rootWalk (c : Coding) (bits : List Bool) : Walk := { node := c.treeIndexStart, bits := bits, written := [] }

/-- The pointer at this point is of an invalid kind. -/
def Coding.Corrupts (c : Coding) (w : Walk) : Prop :=
  ∃ bits n, bits <+: w.bits ∧ (c.Leads w.node bits (.invalid0 n) ∨ c.Leads w.node bits (.invalid3 n))

section
variable {c : Coding}

theorem Coding.WalkStep.extend {w w' : Walk} (h : c.WalkStep w w') (more : List Bool) :
    c.WalkStep (w.extend more) (w'.extend more) := by
  cases h with
  | descend n offset bits rest j hbits hlead hj =>
    exact .descend (w := w.extend more) n offset bits (rest ++ more) j (by simp [Walk.extend, hbits]) hlead hj
  | ret n symbol bits rest hbits hlead =>
    exact .ret (w := w.extend more) n symbol bits (rest ++ more) (by simp [Walk.extend, hbits]) hlead

theorem Coding.Walks.extend {w w' : Walk} (h : c.Walks w w') (more : List Bool) :
    c.Walks (w.extend more) (w'.extend more) :=
  Relation.ReflTransGen.lift (Walk.extend · more) (fun _ _ hstep => Coding.WalkStep.extend hstep more) _ _ h

theorem Coding.Corrupts.extend {w : Walk} (h : c.Corrupts w) (more : List Bool) : c.Corrupts (w.extend more) := by
  obtain ⟨bits, n, hpre, hlead⟩ := h
  exact ⟨bits, n, hpre.trans (List.prefix_append _ _), hlead⟩

/-- Bits that a walk leaves unread it does not need. -/
theorem Coding.Walks.restrict {w w' : Walk} (h : c.Walks w w') (more : List Bool) :
    ∀ v', w' = Walk.extend v' more → ∃ v, w = Walk.extend v more ∧ c.Walks v v' := by
  induction h with
  | refl => exact fun v' h => ⟨v', h, .refl⟩
  | @tail u u' _ hstep ih =>
    rintro v' rfl
    have before : ∃ v, u = Walk.extend v more ∧ c.WalkStep v v' := by
      obtain ⟨node', bits', written'⟩ := v'
      cases hstep with
      | descend n offset bits _ _ hbits hlead hj =>
        refine ⟨⟨u.node, bits ++ bits', u.written⟩, ?_, .descend n offset bits bits' _ rfl hlead hj⟩
        rw [Walk.extend, List.append_assoc]
        exact congrArg (fun bits => Walk.mk u.node bits u.written) hbits
      | ret n symbol bits _ hbits hlead =>
        refine ⟨⟨u.node, bits ++ bits', u.written⟩, ?_, .ret n symbol bits bits' rfl hlead⟩
        rw [Walk.extend, List.append_assoc]
        exact congrArg (fun bits => Walk.mk u.node bits u.written) hbits
    obtain ⟨v, rfl, hv⟩ := before
    obtain ⟨v₀, rfl, hv₀⟩ := ih v rfl
    exact ⟨v₀, rfl, hv₀.tail hv⟩

theorem Coding.Walks.written_prefix {w w' : Walk} (h : c.Walks w w') : w.written <+: w'.written := by
  induction h with
  | refl => exact List.prefix_refl _
  | tail _ hstep ih =>
    cases hstep with
    | descend => exact ih
    | ret => exact ih.trans (List.prefix_append _ _)

/-! ### With the replication property -/

theorem Coding.WalkStep.rightUnique (hwf : c.wf = true) (hrep : c.Replicated) : Relator.RightUnique c.WalkStep := by
  intro w u u' h h'
  cases h with
  | descend n offset bits rest j hbits hlead hj =>
    cases h' with
    | descend n' offset' bits' rest' j' hbits' hlead' hj' =>
      obtain ⟨hp, rfl⟩ := hlead.unique hwf hrep hlead' ⟨rest, hbits.symm⟩ ⟨rest', hbits'.symm⟩
      obtain rfl : rest = rest' := List.append_cancel_left (hbits.symm.trans hbits')
      obtain ⟨_, rfl⟩ : n = n' ∧ offset = offset' := by simpa using hp
      obtain rfl : j = j' := by omega
      rfl
    | ret n' symbol bits' rest' hbits' hlead' =>
      obtain ⟨hp, _⟩ := hlead.unique hwf hrep hlead' ⟨rest, hbits.symm⟩ ⟨rest', hbits'.symm⟩
      cases hp
  | ret n symbol bits rest hbits hlead =>
    cases h' with
    | descend n' offset bits' rest' j hbits' hlead' hj =>
      obtain ⟨hp, _⟩ := hlead.unique hwf hrep hlead' ⟨rest, hbits.symm⟩ ⟨rest', hbits'.symm⟩
      cases hp
    | ret n' symbol' bits' rest' hbits' hlead' =>
      obtain ⟨hp, rfl⟩ := hlead.unique hwf hrep hlead' ⟨rest, hbits.symm⟩ ⟨rest', hbits'.symm⟩
      obtain rfl : rest = rest' := List.append_cancel_left (hbits.symm.trans hbits')
      obtain ⟨_, rfl⟩ : n = n' ∧ symbol = symbol' := by simpa using hp
      rfl

/-- Of two walks from one point, one goes on where the other stops. -/
theorem Coding.Walks.total (hwf : c.wf = true) (hrep : c.Replicated) {w u u' : Walk} (h : c.Walks w u)
    (h' : c.Walks w u') : c.Walks u u' ∨ c.Walks u' u :=
  Relation.ReflTransGen.total_of_right_unique (Coding.WalkStep.rightUnique hwf hrep) h h'

/-- A point with no pointer after it is the last of its walk. -/
theorem Coding.Walks.to_stuck (hwf : c.wf = true) (hrep : c.Replicated) {w u u' : Walk} (h : c.Walks w u)
    (h' : c.Walks w u') (hstuck : ∀ v, ¬ c.WalkStep u' v) : c.Walks u u' := by
  obtain hgo | hgo := h.total hwf hrep h'
  · exact hgo
  · obtain rfl | ⟨v, hv, _⟩ := Relation.ReflTransGen.cases_head hgo
    · exact .refl
    · exact absurd hv (hstuck v)

theorem Coding.Corrupts.stuck (hwf : c.wf = true) (hrep : c.Replicated) {w : Walk} (h : c.Corrupts w) (v : Walk) :
    ¬ c.WalkStep w v := by
  obtain ⟨bits, n, hpre, hlead⟩ := h
  have other (bits' rest : List Bool) (p : Instr) (hbits : w.bits = bits' ++ rest) (hlead' : c.Leads w.node bits' p) :
      p = .invalid0 n ∨ p = .invalid3 n :=
    hlead.imp (fun h => (hlead'.unique hwf hrep h ⟨rest, hbits.symm⟩ hpre).1)
      fun h => (hlead'.unique hwf hrep h ⟨rest, hbits.symm⟩ hpre).1
  rintro (⟨_, _, bits', rest, _, hbits, hlead', _⟩ | ⟨_, _, bits', rest, hbits, hlead'⟩)
  · simpa using other bits' rest _ hbits hlead'
  · simpa using other bits' rest _ hbits hlead'

/-! ### Codewords -/

/-- A codeword is the bits of a walk to its symbol (20 R57). -/
theorem Coding.Codeword.walks {i : Nat} {bits : List Bool} {symbol : Byte} (h : c.Codeword i bits symbol)
    (rest : List Bool) (written : List Byte) :
    c.Walks ⟨i, bits ++ rest, written⟩ ⟨c.treeIndexStart, rest, written ++ [symbol]⟩ := by
  induction h with
  | ret i s bits symbol hi hs hp hb => exact .single (.ret _ symbol bits rest rfl ⟨hi, rfl, s, hs, hp, hb⟩)
  | descend i j s offset bits more symbol hi hs hp hb hj _ ih =>
    exact .head (.descend _ offset bits (more ++ rest) j (List.append_assoc _ _ _) ⟨hi, rfl, s, hs, hp, hb⟩ hj) ih

theorem Coding.walks_of_codewords (code : List (List Bool × Byte))
    (hcode : ∀ p ∈ code, c.Codeword c.treeIndexStart p.1 p.2) (padding : List Bool) : ∀ written : List Byte,
    c.Walks ⟨c.treeIndexStart, code.flatMap Prod.fst ++ padding, written⟩
      ⟨c.treeIndexStart, padding, written ++ code.map Prod.snd⟩ := by
  induction code with
  | nil => intro written; rw [List.map_nil, List.append_nil]; exact .refl
  | cons p code ih =>
    intro written
    have first := (hcode p List.mem_cons_self).walks (code.flatMap Prod.fst ++ padding) written
    have others := ih (fun q hq => hcode q (List.mem_cons_of_mem p hq)) (written ++ [p.2])
    rw [List.append_assoc] at others
    rw [List.flatMap_cons, List.append_assoc]
    exact first.trans others

end

end Sys2Proof
end

section
/-! The machine walks its Coding: through every micro-step of a command it stands on the walk over the bits it was
given, with the bits held still to be read (40 R120), and it stalls or faults only where no pointer of that walk is next. -/

namespace Sys2Proof.Machine

/-! ### The valid window as bits -/

/-- The machine is at this node with these bits in its valid window, oldest first (10 R23). -/
def State.StandsAt (s : State) (node : Nat) (held : List Bool) : Prop :=
  s.treeIndex = (node : Int) ∧ held.length = s.heldCount ∧ bitsValue held = s.window

theorem State.StandsAt.consume {s : State} {node : Nat} {held : List Bool} (h : s.StandsAt node held) (n : Nat) :
    (s.consume n).StandsAt node (held.drop n) := by
  obtain ⟨hnode, hcount, hwindow⟩ := h
  have hlen : (held.drop n).length = s.heldCount - n := by rw [List.length_drop, hcount]
  refine ⟨hnode, hlen, ?_⟩
  rw [State.consume_window, ← hwindow, ← hlen, ← bitsValue_append_mod (held.take n), List.take_append_drop]

theorem State.StandsAt.refill {s : State} {node : Nat} {held : List Bool} (h : s.StandsAt node held) (b : Byte)
    (hroom : s.heldCount ≤ 24) : (s.refill b).StandsAt node (held ++ byteBits b) := by
  obtain ⟨hnode, hcount, hwindow⟩ := h
  refine ⟨hnode, ?_, ?_⟩
  · rw [List.length_append, length_byteBits, hcount, State.refill_heldCount]
  · rw [s.refill_window b hroom, bitsValue_append, bitsValue_byteBits, length_byteBits, hwindow]
    rfl

theorem State.StandsAt.foldl_refill {node : Nat} (bytes : List Byte) : ∀ {s : State} {held : List Bool},
    s.StandsAt node held → s.heldCount + 8 * bytes.length ≤ 32 →
      (bytes.foldl State.refill s).StandsAt node (held ++ streamBits bytes) := by
  induction bytes with
  | nil =>
    intro s held h _
    rw [streamBits_nil, List.append_nil]
    exact h
  | cons b bytes ih =>
    intro s held h hroom
    rw [List.length_cons] at hroom
    have hrest : (s.refill b).heldCount + 8 * bytes.length ≤ 32 := by rw [State.refill_heldCount]; omega
    have := ih (h.refill b (by omega)) hrest
    rwa [List.append_assoc] at this

/-- REFILL_ALL moves the cursor by `n` and the first `n` bytes left into the window. -/
theorem State.StandsAt.refillAll {s : State} {node : Nat} {held : List Bool} (h : s.StandsAt node held)
    (h32 : s.heldCount ≤ 32) (bytes : List Byte) :
    ∃ n, (State.refillAll bytes s).run = s.run.map (fun r => { r with nSrc := r.nSrc + n }) ∧
      (State.refillAll bytes s).dst = s.dst ∧ (State.refillAll bytes s).heldCount ≤ 32 ∧
      (State.refillAll bytes s).StandsAt node (held ++ streamBits (bytes.take n)) := by
  obtain ⟨n, hb, hn, e, _⟩ := State.refillAll_spec bytes s
  have hstands := h.foldl_refill (bytes.take n) (by rw [List.length_take]; omega)
  have htake : bytes.take n = bytes.take ((32 - s.heldCount) / 8) := by rw [hn, List.take_eq_take_iff]; omega
  refine ⟨n, by rw [e], by rw [e], by rw [e]; change s.heldCount + 8 * n ≤ 32; omega, ?_⟩
  rw [State.refillAll_eq_foldl, ← htake]
  exact hstands

/-- The first bits of the selector are the first bits held. -/
theorem State.StandsAt.select_div {s : State} {node : Nat} {held : List Bool} (h : s.StandsAt node held) (c : Coding)
    (ht : c.treeShift ≤ 32) (n : Nat) (hnt : n ≤ c.treeShift) (hn : n ≤ s.heldCount) :
    s.select c / 2 ^ (c.treeShift - n) = bitsValue (held.take n) := by
  obtain ⟨_, hcount, hwindow⟩ := h
  have hlen : (held.drop n).length = s.heldCount - n := by rw [List.length_drop, hcount]
  rw [← bitsValue_append_div _ (held.drop n), List.take_append_drop, hlen, hwindow]
  exact selector_div_pow c.treeShift n s.heldCount s.heldBits ht hnt hn

/-! ### A lookup and the walk -/

section
variable {c : Coding} (hwf : c.wf = true)
include hwf

/-- A pointer whose bits are covered is the one that they lead to. -/
theorem State.StandsAt.leads {s : State} {node : Nat} {held : List Bool} (h : s.StandsAt node held)
    (w : PtrWord c.targetW) (hl : c.tblRead s.treeIndex (s.select c) = some w) (hn : ptrConsumeBits w ≤ s.heldCount) :
    c.Leads node (held.take (ptrConsumeBits w)) (decodePtr w) := by
  obtain ⟨_, _, _, ht⟩ := c.WF2_of_wf hwf
  obtain ⟨hindex, hcount, _⟩ := id h
  obtain ⟨_, hhigh, hslot, hw⟩ := (s.tblRead_eq_some c w).1 hl
  have hnode : s.treeIndex.toNat = node := by rw [hindex, Int.toNat_natCast]
  rw [hnode] at hw
  have hlen : (held.take (ptrConsumeBits w)).length = ptrConsumeBits w :=
    List.length_take_of_le (hn.trans_eq hcount.symm)
  have hle : ptrConsumeBits w ≤ c.treeShift := by
    rw [← bitsTaken_decodePtr, hw]
    exact c.bitsTaken_le hwf node _ hslot
  refine ⟨by omega, (bitsTaken_decodePtr w).trans hlen.symm, s.select c, hslot, ?_, ?_⟩
  · rw [Coding.pointer, ← hw]
  · rw [hlen]
    exact h.select_div c (by omega) _ hle hn

/-- Where the machine stalls no pointer is found on the bits held: the walk over them ends. -/
theorem State.StandsAt.stuck {s : State} {node : Nat} {held : List Bool} (h : s.StandsAt node held)
    (hrep : c.Replicated) (hstalled : s.Stalled c) (written : List Byte) (v : Walk) :
    ¬ c.WalkStep ⟨node, held, written⟩ v := by
  obtain ⟨w, hl, hshort⟩ := hstalled
  obtain ⟨_, _, _, ht⟩ := c.WF2_of_wf hwf
  obtain ⟨hindex, hcount, _⟩ := id h
  obtain ⟨_, _, hslot, hw⟩ := (s.tblRead_eq_some c w).1 hl
  have hnode : s.treeIndex.toNat = node := by rw [hindex, Int.toNat_natCast]
  have noLead (bits rest : List Bool) (p : Instr) (hbits : held = bits ++ rest) (hlead : c.Leads node bits p) :
      False := by
    obtain ⟨_, hn, slot, hs, hp, _⟩ := id hlead
    have hle : bits.length ≤ c.treeShift := hn ▸ hp ▸ c.bitsTaken_le hwf node slot hs
    have hheld : bits.length ≤ s.heldCount := by rw [← hcount, hbits, List.length_append]; omega
    have htop := h.select_div c (by omega) bits.length hle hheld
    rw [hbits, List.take_left] at htop
    have hpointer : decodePtr w = p := by
      rw [hw, hnode]
      exact hlead.pointer_eq hrep (s.select c) hslot htop
    rw [← bitsTaken_decodePtr, hpointer, hn] at hshort
    omega
  rintro (⟨_, _, bits, rest, _, hbits, hlead, _⟩ | ⟨_, _, bits, rest, hbits, hlead⟩)
  · exact noLead bits rest _ hbits hlead
  · exact noLead bits rest _ hbits hlead

end

/-! ### A command on the walk -/

/-- The machine stands on a walk from `start` that has written `output`, with `unread` after the bits it holds. -/
def State.Follows (s : State) (c : Coding) (start : Walk) (output unread : List Byte) : Prop :=
  ∃ node held, s.StandsAt node held ∧ c.Walks start ⟨node, held ++ streamBits unread, output⟩

/-- A DECODE or FLUSH given `src` and room for `dstCap` bytes, on a machine that had written `written` before: the
machine goes on with the walk from `start`, until a fault, which is raised at a point of that walk. -/
inductive State.Tracks (c : Coding) (start : Walk) (written : List Byte) (dstCap : Nat) (src : List Byte) (s : State) :
    Prop where
  | running (r : Run) (hr : s.run = some r) (hc : s.coding = some c) (hsrc : r.src = src) (hcap : r.dstCap = dstCap)
      (h32 : s.heldCount ≤ 32) (hflush : r.kind = .flush → src = [])
      (follows : s.Follows c start (written ++ s.dst) (src.drop r.nSrc))
  | answered (flag : Bool) (nDst nSrc : Nat) (hr : s.run = none) (answer : s.response = some (.ok flag nDst nSrc))
      (follows : s.Follows c start (written ++ s.dst) (src.drop nSrc))
  | faulted (hr : s.run = none) (answer : s.response = some .fault)
      (corrupt : ∃ w, c.Walks start w ∧ c.Corrupts w ∧ w.written.length < written.length + dstCap)

section
variable {c : Coding} {start : Walk} {written : List Byte} {dstCap : Nat} {src : List Byte}

theorem State.Follows.respond_tracks {s : State} {r : Run}
    (h : s.Follows c start (written ++ s.dst) (r.src.drop r.nSrc)) (hflush : r.kind = .flush → r.src = []) :
    (s.respond (s.runResponse r)).Tracks c start written dstCap r.src := by
  match hk : r.kind with
  | .decode => exact .answered false s.dst.length r.nSrc rfl (by simp [State.runResponse, hk]) h
  | .flush =>
    rw [hflush hk, List.drop_nil] at h
    exact .answered s.alignedFlag s.dst.length 0 rfl (by simp [State.runResponse, hk]) (by rw [hflush hk]; exact h)

theorem MicroStep.tracks (hwf : c.wf = true) {s t : State} {r : Run} (h : MicroStep s c r t) (hr : s.run = some r)
    (hc : s.coding = some c) (h32 : s.heldCount ≤ 32) (hflush : r.kind = .flush → r.src = [])
    (follows : s.Follows c start (written ++ s.dst) (r.src.drop r.nSrc)) :
    t.Tracks c start written r.dstCap r.src := by
  obtain ⟨node, held, hstands, hwalk⟩ := id follows
  have split (n : Nat) : held ++ streamBits (r.src.drop r.nSrc) =
      held.take n ++ (held.drop n ++ streamBits (r.src.drop r.nSrc)) := by
    rw [← List.append_assoc, List.take_append_drop]
  cases id h with
  | full =>
    exact .running (r.inPhase .dstFull) (by rw [State.setPhase_run, hr]; rfl) hc rfl rfl h32 hflush follows
  | stall =>
    exact .running (r.inPhase .needInput) (by rw [State.setPhase_run, hr]; rfl) hc rfl rfl h32 hflush follows
  | descend hp hd w hl hn hk =>
    have hlead := hstands.leads hwf w hl hn
    rw [decodePtr_descend w hk] at hlead
    obtain ⟨j, hj⟩ := Int.eq_ofNat_of_zero_le (hlead.descend_target hwf)
    obtain ⟨hindex, hcount, hwindow⟩ := hstands.consume (ptrConsumeBits w)
    refine .running r hr hc rfl rfl ((Nat.sub_le _ _).trans h32) hflush
      ⟨j, held.drop (ptrConsumeBits w), ⟨?_, hcount, hwindow⟩, hwalk.tail (.descend _ _ _ _ j (split _) hlead hj)⟩
    rw [← hj, ← hindex]
    rfl
  | ret hp hd w hl hn hk =>
    have hlead := hstands.leads hwf w hl hn
    rw [decodePtr_ret w hk] at hlead
    obtain ⟨_, hcount, hwindow⟩ := hstands.consume (ptrConsumeBits w)
    refine .running r hr hc rfl rfl ((Nat.sub_le _ _).trans h32) hflush
      ⟨c.treeIndexStart, held.drop (ptrConsumeBits w), ⟨rfl, hcount, hwindow⟩, hwalk.tail ?_⟩
    have hstep := Coding.WalkStep.ret (w := ⟨node, held ++ streamBits (r.src.drop r.nSrc), written ++ s.dst⟩) _ _ _ _
      (split _) hlead
    rw [List.append_assoc] at hstep
    exact hstep
  | corrupt hp hd w hl hn hk =>
    have hlead := hstands.leads hwf w hl hn
    refine .faulted rfl rfl ⟨_, hwalk, ⟨held.take (ptrConsumeBits w), ptrConsumeBits w, ⟨_, (split _).symm⟩, ?_⟩, ?_⟩
    · exact hk.imp (fun hk => decodePtr_invalid0 w hk ▸ hlead) fun hk => decodePtr_invalid3 w hk ▸ hlead
    · rw [List.length_append]
      exact Nat.add_lt_add_left hd _
  | respond => exact follows.respond_tracks hflush
  | refill hp hk hs =>
    have hcoding := h.frame.coding
    obtain ⟨n, hrun, hdst, h32', hstands'⟩ := hstands.refillAll h32 (r.src.drop r.nSrc)
    have hbits : held ++ streamBits (r.src.drop r.nSrc) =
        held ++ streamBits ((r.src.drop r.nSrc).take n) ++ streamBits (r.src.drop (r.nSrc + n)) := by
      rw [List.append_assoc, ← streamBits_append, ← List.drop_drop, List.take_append_drop]
    refine .running { r with nSrc := r.nSrc + n, phase := .extract } ?_ (hcoding.trans hc) rfl rfl h32' hflush
      ⟨node, _, hstands', ?_⟩
    · rw [State.setPhase_run, hrun, hr]
      rfl
    · rw [State.setPhase_dst, hdst, ← hbits]
      exact hwalk

end

end Sys2Proof.Machine
end

section
/-! Sequences of commands on a stream (42 R166): any two histories are on the one walk over it, so what they write does
not depend on how the stream and the capacities were cut, and a stream of codewords decodes to its symbols. -/

namespace Sys2Proof.Machine

/-! ### One command -/

section
variable {c : Coding} {start : Walk} {written : List Byte} {dstCap : Nat} {src : List Byte}

theorem microStep_tracks (hwf : c.wf = true) (s t : State) (hs : s.Tracks c start written dstCap src)
    (h : microStep s = .next t) : t.Tracks c start written dstCap src := by
  cases id hs with
  | running r hr hc hsrc hcap h32 hflush follows =>
    subst hsrc hcap
    exact (microStep_inversion s c r hc hr t h).tracks hwf hr hc h32 hflush follows
  | answered _ _ _ hr | faulted hr =>
    obtain rfl : s = t := by simpa [microStep_idle s hr] using h
    exact hs

theorem onConstructed_tracks (hwf : c.wf = true) (s t : State) (kind : RunKind) (hs : s.ReadyFor c)
    (h32 : s.heldCount ≤ 32) (hflush : kind = .flush → src = []) (follows : s.Follows c start written src)
    (h : onConstructed s (runToEnd (s.startRun kind dstCap src)) = .next t) :
    (∃ flag nDst nSrc, t.response = some (.ok flag nDst nSrc) ∧
      t.Follows c start (written ++ t.dst) (src.drop nSrc)) ∨
    (t.response = some .fault ∧
      ∃ w, c.Walks start w ∧ c.Corrupts w ∧ w.written.length < written.length + dstCap) := by
  obtain ⟨hr, hc, hf⟩ := hs
  rw [onConstructed_ready s c _ hr hc hf] at h
  have begun : (s.startRun kind dstCap src).Tracks c start written dstCap src := by
    refine .running _ rfl hc rfl rfl h32 hflush ?_
    rw [State.startRun_dst, List.append_nil]
    exact follows
  obtain ⟨hend, hidle⟩ := runCommand_keeps _ (microStep_tracks hwf) _ _ t begun h
  cases hend with
  | running _ hr => simp [hidle] at hr
  | answered flag nDst nSrc _ answer follows => exact .inl ⟨flag, nDst, nSrc, answer, follows⟩
  | faulted _ answer corrupt => exact .inr ⟨answer, corrupt⟩

end

theorem State.Follows.extend {s : State} {c : Coding} {start : Walk} {output unread : List Byte}
    (h : s.Follows c start output unread) (more : List Byte) :
    s.Follows c (start.extend (streamBits more)) output (unread ++ more) := by
  obtain ⟨node, held, hstands, hwalk⟩ := h
  refine ⟨node, held, hstands, ?_⟩
  rw [streamBits_append, ← List.append_assoc]
  exact hwalk.extend (streamBits more)

theorem State.Follows.restrict {s : State} {c : Coding} {start : Walk} {output more : List Byte}
    (h : s.Follows c (start.extend (streamBits more)) output more) : s.Follows c start output [] := by
  obtain ⟨node, held, hstands, hwalk⟩ := h
  obtain ⟨v, hv, hwalk'⟩ := hwalk.restrict (streamBits more) ⟨node, held, output⟩ rfl
  obtain ⟨node₀, bits₀, written₀⟩ := start
  obtain ⟨_, _, _⟩ := v
  obtain ⟨rfl, hbits, rfl⟩ := Walk.mk.inj hv
  obtain rfl := List.append_cancel_right hbits
  refine ⟨node, held, hstands, ?_⟩
  rw [streamBits_nil, List.append_nil]
  exact hwalk'

/-! ### Histories -/

theorem rootWalk_append (c : Coding) (bs bs' : List Byte) :
    c.rootWalk (streamBits (bs ++ bs')) = (c.rootWalk (streamBits bs)).extend (streamBits bs') := by
  rw [streamBits_append]
  rfl

/-- A command that answered without a fault leaves a Decoder ready for the next one. -/
theorem onConstructed_ready_of_answer (s t : State) (c : Coding) (kind : RunKind) (dstCap : Nat) (src : List Byte)
    (hs : s.Inv ∧ s.ReadyFor c) (h : onConstructed s (runToEnd (s.startRun kind dstCap src)) = .next t) (flag : Bool)
    (nDst nSrc : Nat) (answer : t.response = some (.ok flag nDst nSrc)) : t.Inv ∧ t.ReadyFor c := by
  obtain ⟨hinv, hr, hc, hf⟩ := hs
  obtain ⟨hidle, ⟨_, hfault⟩ | ⟨_, hft, _⟩⟩ := onConstructed_answered s t hc hf h
  · simp [hfault] at answer
  · rw [onConstructed_ready s c _ hr hc hf] at h
    obtain ⟨t', ht', htInv, _⟩ := runToEnd_inv s hinv c hc hf kind dstCap src
    obtain rfl : t' = t := by simpa [ht'] using h
    have hcoding := (runCommand_frame _ (s.startRun kind dstCap src) t' (by simp [hc]) h).coding
    exact ⟨htInv, hidle, hcoding.trans hc, hft⟩

theorem History.ready {c : Coding} {ingested written : List Byte} {s : State} (h : History c ingested written s) :
    s.Inv ∧ s.ReadyFor c := by
  induction h with
  | new s t h =>
    have hinv := exec_new_inv c s t h
    obtain ⟨_, _, rfl⟩ := execNew_next c s t h
    exact ⟨hinv, rfl, rfl, rfl⟩
  | decode ingested written s t dstCap src nDst nSrc _ h answer ih =>
    exact onConstructed_ready_of_answer s t c .decode dstCap src ih h false nDst nSrc answer
  | flush ingested written s t dstCap finished nDst nSrc _ h answer ih =>
    exact onConstructed_ready_of_answer s t c .flush dstCap [] ih h finished nDst nSrc answer
  | aligned ingested written s t _ h ih =>
    obtain ⟨_, rfl⟩ := exec_aligned_next s t h
    exact ih

theorem History.readyFor {c : Coding} {ingested written : List Byte} {s : State}
    (h : History c ingested written s) : s.ReadyFor c := by
  obtain ⟨_, hready⟩ := h.ready
  exact hready

theorem History.coding_wf {c : Coding} {ingested written : List Byte} {s : State} (h : History c ingested written s) :
    c.wf = true := by
  obtain ⟨⟨hcoding, _⟩, _, hc, _⟩ := h.ready
  exact hcoding c hc

/-- A command on a machine that follows the walk over what it has ingested follows the walk over what it then has. -/
theorem onConstructed_follows (s t : State) (c : Coding) (hwf : c.wf = true) (kind : RunKind) (dstCap : Nat)
    (src ingested written : List Byte) (hs : s.Inv ∧ s.ReadyFor c) (hflush : kind = .flush → src = [])
    (follows : s.Follows c (c.rootWalk (streamBits ingested)) written [])
    (h : onConstructed s (runToEnd (s.startRun kind dstCap src)) = .next t) (flag : Bool) (nDst nSrc : Nat)
    (answer : t.response = some (.ok flag nDst nSrc)) :
    t.Follows c (c.rootWalk (streamBits (ingested ++ src.take nSrc))) (written ++ t.dst) [] := by
  obtain ⟨⟨_, hcount, _⟩, hready⟩ := hs
  obtain ⟨_, _, hf⟩ := id hready
  obtain ⟨flag', nDst', nSrc', answer', follows'⟩ | ⟨hfault, _⟩ :=
    onConstructed_tracks hwf s t kind hready (hcount hf) hflush (follows.extend src) h
  · obtain ⟨_, _, rfl⟩ : flag' = flag ∧ nDst' = nDst ∧ nSrc' = nSrc := by simpa [answer'] using answer
    rw [← rootWalk_append, ← List.take_append_drop nSrc' src, ← List.append_assoc, rootWalk_append,
      List.take_append_drop] at follows'
    exact follows'.restrict
  · simp [hfault] at answer

theorem History.follows {c : Coding} {ingested written : List Byte} {s : State} (h : History c ingested written s) :
    s.Follows c (c.rootWalk (streamBits ingested)) written [] := by
  induction h with
  | new s t h =>
    obtain ⟨_, _, rfl⟩ := execNew_next c s t h
    exact ⟨c.treeIndexStart, [], ⟨rfl, rfl, (Nat.mod_one _).symm⟩, .refl⟩
  | decode ingested written s t dstCap src nDst nSrc past h answer ih =>
    exact onConstructed_follows s t c past.coding_wf .decode dstCap src ingested written past.ready
      (fun hk => by cases hk) ih h false nDst nSrc answer
  | flush ingested written s t dstCap finished nDst nSrc past h answer ih =>
    have := onConstructed_follows s t c past.coding_wf .flush dstCap [] ingested written past.ready (fun _ => rfl) ih h
      finished nDst nSrc answer
    rwa [List.take_nil, List.append_nil] at this
  | aligned ingested written s t _ h ih =>
    obtain ⟨_, rfl⟩ := exec_aligned_next s t h
    exact ih

/-- A history is on the walk over any stream that begins with what it has ingested. -/
theorem History.walks {c : Coding} {ingested written stream : List Byte} {s : State} (h : History c ingested written s)
    (hpre : ingested <+: stream) : ∃ w, w.written = written ∧ c.Walks (c.rootWalk (streamBits stream)) w := by
  obtain ⟨more, rfl⟩ := hpre
  obtain ⟨_, _, _, hwalk⟩ := h.follows
  rw [rootWalk_append]
  exact ⟨_, rfl, hwalk.extend (streamBits more)⟩

theorem onConstructed_stalled_of_room (s t : State) (c : Coding) (kind : RunKind) (dstCap : Nat) (src : List Byte)
    (hs : s.ReadyFor c) (h : onConstructed s (runToEnd (s.startRun kind dstCap src)) = .next t) (flag : Bool)
    (nDst nSrc : Nat) (answer : t.response = some (.ok flag nDst nSrc)) (room : nDst < dstCap) : t.Stalled c := by
  obtain ⟨_, hc, hf⟩ := hs
  obtain ⟨_, ⟨_, hfault⟩ | ⟨nSrc', answered⟩⟩ := onConstructed_answered s t hc hf h
  · simp [hfault] at answer
  · have hdst : t.dst.length = nDst :=
      RunKind.dst_length_of_answer (Option.some.inj (answered.response.symm.trans answer))
    obtain ⟨hstalled, _⟩ := answered.stop.resolve_left (by omega)
    exact hstalled

theorem DrainedHistory.history {c : Coding} {ingested written : List Byte} {s : State}
    (h : DrainedHistory c ingested written s) : History c ingested written s := by
  cases h with
  | decode ingested written s t dstCap src nDst nSrc past h answer =>
    exact .decode ingested written s _ dstCap src nDst nSrc past h answer
  | flush ingested written s t dstCap finished nDst nSrc past h answer =>
    exact .flush ingested _ s _ dstCap finished nDst nSrc past h answer

theorem DrainedHistory.stalled {c : Coding} {ingested written : List Byte} {s : State}
    (h : DrainedHistory c ingested written s) : s.Stalled c := by
  cases h with
  | decode ingested written s t dstCap src nDst nSrc past h answer room =>
    exact onConstructed_stalled_of_room s _ c .decode dstCap src past.readyFor h false nDst nSrc answer room
  | flush ingested written s t dstCap finished nDst nSrc past h answer room =>
    exact onConstructed_stalled_of_room s _ c .flush dstCap [] past.readyFor h finished nDst nSrc answer room

/-- Where a drained history stands the walk over what it has ingested ends. -/
theorem DrainedHistory.walks {c : Coding} {ingested written : List Byte} {s : State} (hrep : c.Replicated)
    (h : DrainedHistory c ingested written s) :
    ∃ w, w.written = written ∧ c.Walks (c.rootWalk (streamBits ingested)) w ∧ ∀ v, ¬ c.WalkStep w v := by
  obtain ⟨node, held, hstands, hwalk⟩ := h.history.follows
  rw [streamBits_nil, List.append_nil] at hwalk
  exact ⟨_, rfl, hwalk, hstands.stuck h.history.coding_wf hrep h.stalled written⟩

theorem DrainedHistory.prefix_of_walks {c : Coding} {ingested written : List Byte} {s : State} (hrep : c.Replicated)
    (h : DrainedHistory c ingested written s) (w : Walk) (hw : c.Walks (c.rootWalk (streamBits ingested)) w) :
    w.written <+: written := by
  obtain ⟨u, rfl, hwalk, hstuck⟩ := h.walks hrep
  exact (hw.to_stuck h.history.coding_wf hrep hwalk hstuck).written_prefix

/-- Settles O48: both histories are on the one walk over the longer input, and a drained one is at its end. -/
theorem outputDoesNotDependOnChunking : Obligations.OutputDoesNotDependOnChunking := by
  intro c ingested ingested' written written' s s' hrep
  have drained {ingested ingested' written written' : List Byte} {s s' : State} (h : History c ingested written s)
      (h' : DrainedHistory c ingested' written' s') (hpre : ingested <+: ingested') : written <+: written' := by
    obtain ⟨w, rfl, hw⟩ := h.walks hpre
    exact h'.prefix_of_walks hrep w hw
  refine ⟨fun h h' hpre => ?_, drained, fun h h' => ?_⟩
  · obtain ⟨w, rfl, hw⟩ := h.walks hpre
    obtain ⟨w', rfl, hw'⟩ := h'.walks (List.prefix_refl ingested')
    exact (hw.total h.coding_wf hrep hw').imp Coding.Walks.written_prefix Coding.Walks.written_prefix
  · have hle := drained h.history h' (List.prefix_refl ingested)
    have hge := drained h'.history h (List.prefix_refl ingested)
    exact hle.eq_of_length_le hge.length_le

/-! ### Streams of codewords -/

section
variable {c : Coding} {code : List (List Bool × Byte)} {padding : List Bool} {stream : List Byte}

/-- The walk over a stream that begins with codewords comes to their symbols. -/
theorem walks_of_stream (hcode : ∀ p ∈ code, c.Codeword c.treeIndexStart p.1 p.2)
    (hstream : streamBits stream = code.flatMap Prod.fst ++ padding) :
    c.Walks (c.rootWalk (streamBits stream)) ⟨c.treeIndexStart, padding, code.map Prod.snd⟩ := by
  rw [Coding.rootWalk, hstream]
  exact c.walks_of_codewords code hcode padding []

variable (hrep : c.Replicated) (hcode : ∀ p ∈ code, c.Codeword c.treeIndexStart p.1 p.2)
  (hstream : streamBits stream = code.flatMap Prod.fst ++ padding)
include hrep hcode hstream

theorem History.written_of_stream {ingested written : List Byte} {s : State} (hpre : ingested <+: stream)
    (h : History c ingested written s) : written <+: code.map Prod.snd ∨ code.map Prod.snd <+: written := by
  obtain ⟨w, rfl, hw⟩ := h.walks hpre
  exact (hw.total h.coding_wf hrep (walks_of_stream hcode hstream)).imp Coding.Walks.written_prefix
    Coding.Walks.written_prefix

theorem History.written_prefix_of_length_le {ingested written : List Byte} {s : State} (hpre : ingested <+: stream)
    (h : History c ingested written s) (hlen : written.length ≤ code.length) : written <+: code.map Prod.snd := by
  obtain hle | hge := h.written_of_stream hrep hcode hstream hpre
  · exact hle
  · rw [hge.eq_of_length_le (by rwa [List.length_map])]

/-- The walk over the codewords meets no invalid kind before the last symbol is written. -/
theorem length_le_of_corrupts (hwf : c.wf = true) (w : Walk) (hw : c.Walks (c.rootWalk (streamBits stream)) w)
    (hcorrupt : c.Corrupts w) : code.length ≤ w.written.length := by
  have hsymbols := (walks_of_stream hcode hstream).to_stuck hwf hrep hw (hcorrupt.stuck hwf hrep)
  have hle := hsymbols.written_prefix.length_le
  rwa [List.length_map] at hle

theorem History.unfaulted_of_stream {ingested written src : List Byte} {s t : State} {kind : RunKind} {dstCap : Nat}
    (past : History c ingested written s) (hpre : ingested ++ src <+: stream)
    (hlen : written.length + dstCap ≤ code.length) (hflush : kind = .flush → src = [])
    (h : onConstructed s (runToEnd (s.startRun kind dstCap src)) = .next t) : t.fault = false := by
  obtain ⟨⟨_, hcount, _⟩, hready⟩ := past.ready
  obtain ⟨_, hc, hf⟩ := id hready
  obtain ⟨_, ⟨_, hfault⟩ | ⟨_, answered⟩⟩ := onConstructed_answered s t hc hf h
  · obtain ⟨_, _, _, answer, _⟩ | ⟨_, w, hw, hcorrupt, hshort⟩ :=
      onConstructed_tracks past.coding_wf s t kind hready (hcount hf) hflush (past.follows.extend src) h
    · simp [hfault] at answer
    · obtain ⟨more, rfl⟩ := hpre
      rw [← rootWalk_append] at hw
      have hw' := hw.extend (streamBits more)
      rw [← rootWalk_append] at hw'
      have hall : code.length ≤ w.written.length :=
        length_le_of_corrupts hrep hcode hstream past.coding_wf (w.extend _) hw' (hcorrupt.extend _)
      omega
  · exact answered.fault

theorem History.decode_of_stream {ingested written : List Byte} {s : State} (dstCap : Nat) (src : List Byte)
    (past : History c ingested written s) (hpre : ingested ++ src <+: stream)
    (hlen : written.length + dstCap ≤ code.length) :
    ∃ t nSrc, exec (.decode dstCap src) s = .next t ∧ t.fault = false ∧
      t.response = some (.ok false t.dst.length nSrc) ∧ written ++ t.dst <+: code.map Prod.snd := by
  obtain ⟨hinv, hready⟩ := past.ready
  obtain ⟨t, ht, _, _, _, hend⟩ := decodeCompletesWithItsCounts s c dstCap src hinv hready
  have hf := past.unfaulted_of_stream hrep hcode hstream hpre hlen (kind := .decode) (fun hk => by cases hk) ht
  obtain ⟨hfault, _⟩ | ⟨_, nSrc, answer, hdst, _⟩ := hend
  · simp [hf] at hfault
  have hpre' : ingested ++ src.take nSrc <+: stream :=
    ((List.prefix_append_right_inj ingested).2 (List.take_prefix nSrc src)).trans hpre
  have now := History.decode ingested written s t dstCap src _ nSrc past ht answer
  exact ⟨t, nSrc, ht, hf, answer, now.written_prefix_of_length_le hrep hcode hstream hpre'
    (by rw [List.length_append]; omega)⟩

theorem History.flush_of_stream {ingested written : List Byte} {s : State} (dstCap : Nat)
    (past : History c ingested written s) (hpre : ingested <+: stream)
    (hlen : written.length + dstCap ≤ code.length) :
    ∃ t finished, exec (.flush dstCap) s = .next t ∧ t.fault = false ∧
      t.response = some (.ok finished t.dst.length 0) ∧ written ++ t.dst <+: code.map Prod.snd := by
  obtain ⟨hinv, hready⟩ := past.ready
  obtain ⟨t, ht, _, _, _, hend⟩ := flushCompletesWithFinished s c dstCap hinv hready
  have hf := past.unfaulted_of_stream hrep hcode hstream (src := []) (by rwa [List.append_nil]) hlen (kind := .flush)
    (fun _ => rfl) ht
  obtain ⟨hfault, _⟩ | ⟨_, _, _, hdst, answer⟩ := hend
  · simp [hf] at hfault
  have now := History.flush ingested written s t dstCap _ _ 0 past ht answer
  exact ⟨t, _, ht, hf, answer, now.written_prefix_of_length_le hrep hcode hstream hpre
    (by rw [List.length_append]; omega)⟩

theorem DrainedHistory.symbols_prefix {written : List Byte} {s : State} (h : DrainedHistory c stream written s) :
    code.map Prod.snd <+: written :=
  h.prefix_of_walks hrep _ (walks_of_stream hcode hstream)

end

/-- Settles O49: the walk over the stream writes the symbols first, and every history is on that walk. -/
theorem codewordsDecodeToTheirSymbols : Obligations.CodewordsDecodeToTheirSymbols := by
  intro c code padding stream ingested written s hrep hcode hstream
  refine ⟨fun hpre h => h.written_of_stream hrep hcode hstream hpre, fun h => h.symbols_prefix hrep hcode hstream,
    fun dstCap src past hpre hlen => ⟨past.decode_of_stream hrep hcode hstream dstCap src hpre hlen, ?_⟩⟩
  exact past.flush_of_stream hrep hcode hstream dstCap ((List.prefix_append _ _).trans hpre) hlen

/-- Settles O50: with room left the DECODE has drained the whole stream, so either way all symbols are written. -/
theorem oneDecodeGivesTheMessage : Obligations.OneDecodeGivesTheMessage := by
  intro c code padding stream s t hrep hcode hstream h
  have past : History c [] [] t := .new s t h
  obtain ⟨u, nSrc, hu, hf, answer, hle⟩ := past.decode_of_stream hrep hcode hstream code.length stream
    (List.prefix_refl _) (Nat.zero_add _).le
  have hlen : code.length ≤ u.dst.length := by
    by_contra hroom
    obtain ⟨_, hc, hft⟩ := past.readyFor
    obtain ⟨_, ⟨hfault, _⟩ | ⟨nSrc', answered⟩⟩ := onConstructed_answered t u hc hft hu
    · simp [hf] at hfault
    have hsrc : nSrc' = nSrc := by simpa [RunKind.answer, answer] using answered.response.symm
    obtain ⟨_, hall⟩ := answered.stop.resolve_left (by omega)
    have hall : stream.length ≤ nSrc := by simpa [hsrc] using hall
    have drained := DrainedHistory.decode [] [] t u code.length stream _ nSrc past hu answer (by omega)
    rw [List.take_of_length_le hall] at drained
    have := (drained.symbols_prefix hrep hcode hstream).length_le
    rw [List.length_map] at this
    exact hroom this
  have hdst : u.dst = code.map Prod.snd := hle.eq_of_length_le (by rwa [List.length_map])
  refine ⟨u, nSrc, hu, hf, hdst, ?_⟩
  rw [answer, hdst, List.length_map]

end Sys2Proof.Machine
end

section
/-! The order in which the stops of EXTRACT are looked for (60 R195): the capacity test, STALLCHK, the kind. -/

namespace Sys2Proof.Machine

/-- Of a full `dst` the capacity test alone is made: no Coding is asked for. -/
theorem extractStep_full (s : State) (r : Run) (hfull : r.dstCap ≤ s.dst.length) :
    extractStep r s = .next (s.setPhase .dstFull) := by
  rw [extractStep, if_pos ((s.dstFull_iff r).2 hfull)]

/-- An invalid kind of either value faults when STALLCHK lets it through, and not when it stalls. -/
theorem takePointer_corruptAt_fault_iff (n : Nat) (kind : BitVec 2) (s t : State) (hs : s.fault = false)
    (h : takePointer n (corruptAt s kind) s = .next t) : t.fault = true ↔ n ≤ s.heldCount := by
  obtain ⟨_, _, _, ⟨hstall, rfl⟩ | ⟨hcovered, rfl⟩⟩ := takePointer_next n _ s t h
  · rw [State.setPhase_fault, hs]
    exact iff_of_false Bool.false_ne_true (Nat.not_le.2 hstall)
  · exact iff_of_true rfl hcovered

/-- Settles O18: the capacity test is the first thing in an iteration, and STALLCHK comes before the kind. -/
theorem stopsInTheOrderOfPriority : Obligations.StopsInTheOrderOfPriority := by
  refine ⟨fun s r hr hp hfull => ?_, fun s t n hs h => ?_, fun s r hr hp => ⟨s.runResponse r, ?_⟩⟩
  · rw [step_inside s (by simp [hr]), microStep_extract s r hr hp, extractStep_full s r hfull,
      s.setPhase_of_run r hr]
  · rw [exec_invalid0_eq, exec_invalid3_eq] at h
    exact h.elim (takePointer_corruptAt_fault_iff n _ s t hs) (takePointer_corruptAt_fault_iff n _ s t hs)
  · rw [step_inside s (by simp [hr]), microStep_dstFull s r hr hp]
    rfl

end Sys2Proof.Machine
end

section
/-! A Decoder right after `NEW`, which is the reset (70 R221): at the root with no bits held it looks up slot 0, and
stays there for as long as that slot's pointer is a RETURN that consumes nothing. -/

namespace Sys2Proof.Machine

/-! ### The lookup after NEW -/

/-- The registers as `NEW` on `c` leaves them (10 R34), between commands or inside one. -/
structure State.AsNew (s : State) (c : Coding) : Prop where
  coding : s.coding = some c
  wf : c.wf = true
  fault : s.fault = false
  treeIndex : s.treeIndex = (c.treeIndexStart : Int)
  heldBits : s.heldBits = 0#32
  heldCount : s.heldCount = 0

theorem exec_new_asNew (s t : State) (c : Coding) (h : exec (.new c) s = .next t) : t.ReadyFor c ∧ t.AsNew c := by
  obtain ⟨_, hwf, rfl⟩ := execNew_next c s t h
  exact ⟨⟨rfl, rfl, rfl⟩, rfl, hwf, rfl, rfl, rfl, rfl⟩

/-- With no bits held the selector is all padding (40 R112). -/
theorem State.select_of_noBits (s : State) (c : Coding) (ht : c.treeShift ≤ 32) (h : s.heldCount = 0) :
    s.select c = 0 := by
  rw [s.select_eq_window c ht, State.window, h]
  simp [Nat.mod_one]

theorem State.AsNew.startRun {s : State} {c : Coding} (h : s.AsNew c) (kind : RunKind) (dstCap : Nat)
    (src : List Byte) : (s.startRun kind dstCap src).AsNew c :=
  ⟨h.coding, h.wf, h.fault, h.treeIndex, h.heldBits, h.heldCount⟩

theorem State.AsNew.emit {s : State} {c : Coding} (h : s.AsNew c) (symbol : Byte) : (s.emit symbol).AsNew c :=
  ⟨h.coding, h.wf, h.fault, h.treeIndex, h.heldBits, h.heldCount⟩

theorem State.AsNew.alignedFlag {s : State} {c : Coding} (h : s.AsNew c) : s.alignedFlag = true := by
  simp [State.alignedFlag, h.heldBits]

theorem State.AsNew.lookup {s : State} {c : Coding} (h : s.AsNew c) :
    c.tblRead s.treeIndex (s.select c) = some (c.word c.treeIndexStart 0) := by
  obtain ⟨hstart, _, _, ht⟩ := c.WF2_of_wf h.wf
  rw [h.treeIndex, s.select_of_noBits c (by omega) h.heldCount]
  exact c.tblRead_eq_some _ 0 hstart (Nat.two_pow_pos _)

/-! ### A pointer that consumes nothing -/

theorem decodePtr_eq_ret {tw n : Nat} {symbol : Byte} (w : PtrWord tw) (h : decodePtr w = .ret n symbol) :
    ptrKind w = kindReturn ∧ ptrConsumeBits w = n ∧ ptrSymbol w = symbol := by
  have hk := (ptrKind_eq_return_iff w).2 ⟨n, symbol, h⟩
  rw [decodePtr_ret w hk] at h
  obtain ⟨hn, hsymbol⟩ := Instr.ret.inj h
  exact ⟨hk, hn, hsymbol⟩

theorem decodePtr_eq_invalid {tw n : Nat} (w : PtrWord tw) (h : decodePtr w = .invalid0 n ∨ decodePtr w = .invalid3 n) :
    (ptrKind w = kindInvalid0 ∨ ptrKind w = kindInvalid3) ∧ ptrConsumeBits w = n := by
  refine ⟨h.imp (fun h => (ptrKind_eq_invalid0_iff w).2 ⟨n, h⟩) fun h => (ptrKind_eq_invalid3_iff w).2 ⟨n, h⟩, ?_⟩
  rw [← bitsTaken_decodePtr]
  obtain h | h := h <;> rw [h] <;> rfl

section
variable {s : State} {c : Coding} {r : Run} {symbol : Byte}

/-- With no bits held a RETURN at slot 0 of the root leaves the machine where it is, one symbol further. -/
theorem State.AsNew.microStep_ret (hs : s.AsNew c) (hp : c.pointer c.treeIndexStart 0 = .ret 0 symbol)
    (hr : s.run = some r) (hphase : r.phase = .extract) (hroom : s.dst.length < r.dstCap) :
    microStep s = .next (s.emit symbol) := by
  obtain ⟨hk, hn, rfl⟩ := decodePtr_eq_ret _ hp
  have hstep := (MicroStep.ret hphase hroom _ hs.lookup (hn.trans_le (Nat.zero_le _)) hk).microStep_eq hs.coding hr
    hs.fault
  rwa [hn, ← hs.treeIndex] at hstep

/-- The RETURN fills `dst` and the capacity test ends the command (70 R221). -/
theorem State.AsNew.endsIn_filled (hp : c.pointer c.treeIndexStart 0 = .ret 0 symbol) (hphase : r.phase = .extract)
    (k : Nat) : ∀ {s t : State}, s.AsNew c → s.run = some r → s.dst.length + k = r.dstCap →
      t = { s with dst := s.dst ++ List.replicate k symbol } → s.EndsIn (t.respond (t.runResponse r)) := by
  induction k with
  | zero =>
    rintro s t hs hr hfull rfl
    rw [List.replicate_zero, List.append_nil]
    refine (MicroStep.full (c := c) hphase (Nat.le_of_eq hfull.symm)).endsIn hs.coding hr hs.fault ?_
    have hr' : (s.setPhase .dstFull).run = some (r.inPhase .dstFull) := by rw [State.setPhase_run, hr]; rfl
    exact (MicroStep.respond (c := c) (.inl rfl)).endsIn hs.coding hr' hs.fault (.ended _ rfl)
  | succ k ih =>
    rintro s t hs hr hfull rfl
    have hstep := hs.microStep_ret hp hr hphase (by omega)
    refine .after s _ _ (by simp [hr]) hstep (ih (hs.emit symbol) hr ?_ ?_)
    · rw [State.emit_dst, List.length_append, List.length_singleton]
      omega
    · simp [State.emit, List.replicate_succ]

/-- An invalid kind at slot 0 of the root that asks for no bits ends the command at once (41 R134). -/
theorem State.AsNew.endsIn_corrupt (hs : s.AsNew c)
    (hp : c.pointer c.treeIndexStart 0 = .invalid0 0 ∨ c.pointer c.treeIndexStart 0 = .invalid3 0)
    (hr : s.run = some r) (hphase : r.phase = .extract) (hroom : s.dst.length < r.dstCap) :
    ∃ u, s.EndsIn u ∧ u.fault = true ∧ u.response = some .fault ∧ u.dst = s.dst := by
  obtain ⟨hk, hn⟩ := decodePtr_eq_invalid _ hp
  have hstep := MicroStep.corrupt hphase hroom _ hs.lookup (hn.trans_le (Nat.zero_le _)) hk
  exact ⟨_, hstep.endsIn hs.coding hr hs.fault (.ended _ rfl), rfl, rfl, rfl⟩

/-! ### FLUSH after NEW -/

/-- FLUSH stops at once: at the capacity test, or at STALLCHK. -/
theorem State.AsNew.exec_flush_stops (hs : s.AsNew c) (hready : s.ReadyFor c) (dstCap : Nat)
    (h : dstCap = 0 ∨ 0 < ptrConsumeBits (c.word c.treeIndexStart 0)) :
    exec (.flush dstCap) s = .next { s with dst := [], response := some (.ok true 0 0) } := by
  have hanswer : RunKind.flush.answer { s with dst := [] } 0 = .ok true 0 0 :=
    congrArg (Response.ok · 0 0) hs.alignedFlag
  rw [exec_flush_eq, ← hanswer]
  obtain rfl | hshort := h
  · exact onConstructed_noCapacity s c .flush [] hready
  · exact onConstructed_stalled s c .flush dstCap hready ⟨_, hs.lookup, by rw [hs.heldCount]; exact hshort⟩

/-- FLUSH writes the symbol of a RETURN that consumes nothing until `dst` is full. -/
theorem State.AsNew.exec_flush_fills (hs : s.AsNew c) (hinv : s.Inv) (hready : s.ReadyFor c) (dstCap : Nat)
    (hp : c.pointer c.treeIndexStart 0 = .ret 0 symbol) :
    exec (.flush dstCap) s =
      .next { s with dst := List.replicate dstCap symbol, response := some (.ok true dstCap 0) } := by
  have hend := State.AsNew.endsIn_filled hp rfl dstCap (hs.startRun .flush dstCap []) rfl (Nat.zero_add _) rfl
  rw [exec_flush_eq, (onConstructed_iff_endsIn s _ c hinv hready .flush dstCap []).2 hend]
  obtain ⟨hr, _⟩ := hready
  simp [State.respond, State.runResponse, State.startRun, State.alignedFlag, hs.heldBits, hr]

end

/-- Settles O33: after `NEW` no bits are held and `heldBits` is zero, so FLUSH does what slot 0 of the root says. -/
theorem rightAfterNew : Obligations.RightAfterNew := by
  intro s t c h
  have hinv := exec_new_inv c s t h
  obtain ⟨hready, hs⟩ := exec_new_asNew s t c h
  refine ⟨?_, hs.exec_flush_stops hready, fun dstCap _ => hs.exec_flush_fills hinv hready dstCap, ?_⟩
  · obtain ⟨haligned, _⟩ := alignedTestsTheWholeWord
    obtain ⟨hzero, _⟩ := haligned t c hready
    exact hzero hs.heldBits
  · intro dstCap hcap hp
    obtain ⟨u, hend, hfault, hresponse, hdst⟩ := (hs.startRun .flush dstCap []).endsIn_corrupt hp rfl rfl hcap
    exact ⟨u, (onConstructed_iff_endsIn t u c hinv hready .flush dstCap []).2 hend, hfault, hresponse, hdst⟩

end Sys2Proof.Machine
end
